-- ==== Sys2Proof/Word.lean ====
section
/-! DEFINITION. The Word of the core (10_state.md R20), the byte of an opcode, and the characters of a token. -/

namespace Sys2Proof

/-- A Word: "an unsigned 16-bit integer, 0..65535" (00_scope.md R14, 10_state.md R20). -/
abbrev Word := BitVec 16

/-- An opcode byte or the low byte of a macro word (30_encoding.md R81). -/
abbrev Byte := BitVec 8

/-- The text of one token of the opcode table, or of a ROM text (30_encoding.md R85, 20_memory.md R60). -/
abbrev Token := List Char

end Sys2Proof
end

