-- ==== Sys2Proof/Syntax.lean ====
section
/-! DEFINITION. The syntax: registers, specs, the instruction type with one constructor per row of the opcode table,
the keys of the microcode ROM and the text forms the table is read from. -/

namespace Sys2Proof

/-- The 12 registers (10_state.md R21). -/
inductive RegName where
  | pc | inc | ir | sp | a | b | mar | mdr | alux | aluy | alur | psr
deriving DecidableEq, Repr, Inhabited

/-- The abstract bit-field specs (00_scope.md R13, 30_encoding.md R89): the whole word, the two bytes and the seven
fields of `psr`. -/
inductive Spec where
  | whole | high | low | i | e | int | v | n | z | c
deriving DecidableEq, Repr, Inhabited

/-- The single-bit fields a `?psr` test may name (30_encoding.md R89). -/
inductive PsrBit where
  | i | e | v | n | z | c
deriving DecidableEq, Repr, Inhabited

/-- The instructions: one constructor for each row of the opcode table. The first eighteen are the resolved
microinstructions of 30_encoding.md R89 (`ALU` has one constructor for each of its 11 operations); `undefined`, `halt`
and `exec` are the decode classes of a macro word (30_encoding.md R84), with its opcode byte and its low byte `d8`;
`fetch` and `interrupt` are the two reserved keys of the table (30_encoding.md R90). -/
inductive Instr where
  | nopEntry
  | lit (value : Nat) (d : RegName) (ds : Spec)
  | litIb (d : RegName) (ds : Spec)
  | ramRd (d : RegName) (ds : Spec)
  | ramWr (s : RegName) (ss : Spec)
  | aluAdd
  | aluAddc
  | aluSub
  | aluShl
  | aluShr
  | aluAnd
  | aluOr
  | aluNot
  | aluInc
  | aluDec
  | aluSwap
  | psrTest (bit : PsrBit) (expect : Bool)
  | move (s : RegName) (ss : Spec) (d : RegName) (ds : Spec)
  | undefined (op d8 : Byte)
  | halt (d8 : Byte)
  | exec (op d8 : Byte)
  | fetch
  | interrupt
deriving DecidableEq, Repr, Inhabited

/-- The keys of the microcode ROM (30_encoding.md R90), which are also the values of `prog` (10_state.md R32). -/
inductive ProgKey where
  | fetch
  | exec (op : Byte)
  | interrupt
deriving DecidableEq, Repr, Inhabited

/-- A microprogram: "a finite list of `MicroInstr`, possibly empty" (30_encoding.md R90). That its entries are
microinstructions is a check of the ROM (30_encoding.md R96). -/
abbrev Program := List Instr

/-- The text form of a microinstruction, `[srcId, srcSpec, dstId, dstSpec]` (30_encoding.md R85). -/
structure Tuple where
  src : Token
  sspec : Token
  dst : Token
  dspec : Token
deriving DecidableEq, Repr, Inhabited

/-- One record of the opcode-table input (30_encoding.md R91). -/
structure Record where
  key : Token
  mnemonic : Token
  description : Token
  program : List Tuple
deriving DecidableEq, Repr, Inhabited

/-- The named checks a loaded opcode table must pass (30_encoding.md R96). -/
inductive RomCheck where
  | hasFetch
  | hasInterrupt
  | uniqueKeys
  | resolves
  | specApplies
  | nopFirstOnly
  | literalParses
  | testExpect
  | testBit
  | ramWhole
  | noRamToRam
deriving DecidableEq, Repr, Inhabited

/-- What an instruction is written as: a tuple of the opcode table, a macro word in memory, or a reserved key. -/
inductive Encoded where
  | tuple (t : Tuple)
  | word (w : Word)
  | key (k : Token)
deriving DecidableEq, Repr, Inhabited

/-- Why the decoder refuses a text: a check of 30_encoding.md R96 fails, or a key is none of the two reserved ones. -/
inductive DecodeError where
  | check (c : RomCheck)
  | notAReservedKey
deriving DecidableEq, Repr, Inhabited

/-- The spec that names the bit of a `?psr` test. -/
def PsrBit.spec : PsrBit → Spec
  | .i => .i
  | .e => .e
  | .v => .v
  | .n => .n
  | .z => .z
  | .c => .c

/-- The microinstructions, the only instructions a microprogram holds (30_encoding.md R89). -/
def Instr.isMicro : Instr → Bool
  | .nopEntry => true
  | .lit _ _ _ => true
  | .litIb _ _ => true
  | .ramRd _ _ => true
  | .ramWr _ _ => true
  | .aluAdd => true
  | .aluAddc => true
  | .aluSub => true
  | .aluShl => true
  | .aluShr => true
  | .aluAnd => true
  | .aluOr => true
  | .aluNot => true
  | .aluInc => true
  | .aluDec => true
  | .aluSwap => true
  | .psrTest _ _ => true
  | .move _ _ _ _ => true
  | .undefined _ _ => false
  | .halt _ => false
  | .exec _ _ => false
  | .fetch => false
  | .interrupt => false

end Sys2Proof
end

