-- ==== Sys2Proof/Config.lean ====
section
/-! DEFINITION. What an implementation fixes and the values the spec leaves free: the parameters of 00_scope.md R9 and
the inputs of a step. The constants without a body are free: nothing can be proved of their values. -/

namespace Sys2Proof

/-- `TOKEN_SPELLING` (92_eei_decisions.md D3): the text of each abstract token whose spelling the spec leaves open. The
register names and the keywords `ram`, `alu`, `?psr`, `IB` are spelled as the spec spells them (30_encoding.md R86). -/
structure Spelling where
  lit : Token
  whole : Token
  high : Token
  low : Token
  fieldI : Token
  fieldE : Token
  fieldInt : Token
  fieldV : Token
  fieldN : Token
  fieldZ : Token
  fieldC : Token
  opAdd : Token
  opAddc : Token
  opSub : Token
  opShl : Token
  opShr : Token
  opAnd : Token
  opOr : Token
  opNot : Token
  opInc : Token
  opDec : Token
  opSwap : Token
deriving DecidableEq, Repr, Inhabited

/-- The spelling that the spec's own examples use (92_eei_decisions.md D3): for tests and examples only. -/
def Spelling.fixture : Spelling :=
  { lit := ['l', 'i', 't']
    whole := []
    high := ['H', 'I']
    low := ['L', 'O']
    fieldI := ['I']
    fieldE := ['E']
    fieldInt := ['I', 'N', 'T']
    fieldV := ['V']
    fieldN := ['N']
    fieldZ := ['Z']
    fieldC := ['C']
    opAdd := ['A', 'D', 'D']
    opAddc := ['A', 'D', 'D', 'C']
    opSub := ['S', 'U', 'B']
    opShl := ['S', 'H', 'L']
    opShr := ['S', 'H', 'R']
    opAnd := ['A', 'N', 'D']
    opOr := ['O', 'R']
    opNot := ['N', 'O', 'T']
    opInc := ['I', 'N', 'C']
    opDec := ['D', 'E', 'C']
    opSwap := ['S', 'W', 'A', 'P'] }

/-- The clock reading of one step (60_exceptions.md R225): six Words (R226, log 7). -/
structure Clock where
  sec : Word
  min : Word
  hour : Word
  day : Word
  month : Word
  year : Word
deriving DecidableEq, Repr, Inhabited

/-- What the host gives one step: the clock reading (60_exceptions.md R245), and, where `INTERRUPT_POLICY` is
`optional`, whether the driver takes an eligible interrupt (60_exceptions.md R211). -/
structure StepInput where
  clk : Clock
  takeInterrupt : Bool
deriving DecidableEq, Repr, Inhabited

/-- `INTERRUPT_POLICY` (92_eei_decisions.md D16). -/
inductive InterruptPolicy where
  | eager
  | optional
deriving DecidableEq, Repr, Inhabited

/-- `INTERRUPT_BOUNDARY` (92_eei_decisions.md D17). -/
inductive InterruptBoundary where
  | anyProgramBoundary
  | beforeFetchOnly
deriving DecidableEq, Repr, Inhabited

/-- `HALT_OPCODE` of the machine after reset: the spec gives no value (92_eei_decisions.md D6, log 4). -/
opaque Config.haltOpcode : Byte

/-- `IB_VALUE` of the machine after reset: the spec gives no value (92_eei_decisions.md D5, log 4). -/
opaque Config.ibValue : Word

/-- `TOKEN_SPELLING` of the machine after reset: the spec gives no texts (92_eei_decisions.md D3, log 5). -/
opaque Config.spelling : Spelling

/-- The input of the step that bears the number `n`, where the host has supplied none beforehand: any clock reading and
any choice of the driver (92_eei_decisions.md D24, D16, log 7). -/
opaque Config.stepInput : Nat → StepInput

end Sys2Proof
end

