-- ==== Sys2Proof/WellFormed.lean ====
section
/-! DEFINITION. Well-formed instructions: which spec applies to which register (30_encoding.md R97), and to which
decode class a macro word's opcode byte belongs (30_encoding.md R84). -/

namespace Sys2Proof

/-- The field specs of `psr` (10_state.md R29). -/
def Spec.isPsrField : Spec → Bool
  | .whole => false
  | .high => false
  | .low => false
  | .i => true
  | .e => true
  | .int => true
  | .v => true
  | .n => true
  | .z => true
  | .c => true

/-- Spec applicability (30_encoding.md R97): `WHOLE`, `HIGH` and `LOW` on every register, the field specs on `psr`
only. -/
def Spec.appliesTo (f : Spec) (r : RegName) : Bool :=
  !f.isPsrField || r == .psr

/-- Every register-side spec of the instruction applies to its register (`RC_SPEC_APPLIES`, 30_encoding.md R96). -/
def Instr.specsApply : Instr → Bool
  | .nopEntry => true
  | .lit _ d ds => ds.appliesTo d
  | .litIb d ds => ds.appliesTo d
  | .ramRd d ds => ds.appliesTo d
  | .ramWr s ss => ss.appliesTo s
  | .aluAdd => true
  | .aluAddc => true
  | .aluSub => true
  | .aluShl => true
  | .aluShr => true
  | .aluAnd => true
  | .aluOr => true
  | .aluNot => true
  | .aluInc => true
  | .aluDec => true
  | .aluSwap => true
  | .psrTest _ _ => true
  | .move s ss d ds => ss.appliesTo s && ds.appliesTo d
  | .undefined _ _ => true
  | .halt _ => true
  | .exec _ _ => true
  | .fetch => true
  | .interrupt => true

/-- The decode class of a macro word's opcode byte (30_encoding.md R84), given which bytes have an Execute program and
which byte is `HALT_OPCODE`. Every other instruction is of its class. -/
def Instr.classOk (defined : Byte → Bool) (haltOp : Byte) : Instr → Bool
  | .undefined op _ => !defined op
  | .halt _ => defined haltOp
  | .exec op _ => defined op && op != haltOp
  | .nopEntry => true
  | .lit _ _ _ => true
  | .litIb _ _ => true
  | .ramRd _ _ => true
  | .ramWr _ _ => true
  | .aluAdd => true
  | .aluAddc => true
  | .aluSub => true
  | .aluShl => true
  | .aluShr => true
  | .aluAnd => true
  | .aluOr => true
  | .aluNot => true
  | .aluInc => true
  | .aluDec => true
  | .aluSwap => true
  | .psrTest _ _ => true
  | .move _ _ _ _ => true
  | .fetch => true
  | .interrupt => true

/-- A well-formed instruction, for a table that defines the opcode bytes `defined`. -/
def Instr.wf (defined : Byte → Bool) (haltOp : Byte) (i : Instr) : Bool :=
  i.specsApply && i.classOk defined haltOp

/-- "`NOP_ENTRY` occurs only at index 0" (`RC_NOP_FIRST_ONLY`, 30_encoding.md R96; log 17). -/
def Program.nopFirstOnly (p : Program) : Bool :=
  p.tail.all fun i => i != .nopEntry

/-- What a microprogram must satisfy: microinstructions only, applicable specs, the empty entry first or not at all
(30_encoding.md R96). -/
def Program.wf (p : Program) : Bool :=
  p.all Instr.isMicro && p.all Instr.specsApply && Program.nopFirstOnly p

end Sys2Proof
end

