-- ==== Sys2Proof/Decode.lean ====
section
/-! DEFINITION. The decoder and the encoder: the tuples of the opcode table (30_encoding.md R85 to R97), the macro word
(30_encoding.md R81, R84) and the reserved keys (30_encoding.md R90). Total on any text, and every rejection is named. -/

namespace Sys2Proof

/-! ## Hex digits -/

/-- The value of a hex digit, in either case. -/
def hexDigit (c : Char) : Option Nat :=
  if 48 ≤ c.toNat ∧ c.toNat ≤ 57 then some (c.toNat - 48)
  else if 65 ≤ c.toNat ∧ c.toNat ≤ 70 then some (c.toNat - 55)
  else if 97 ≤ c.toNat ∧ c.toNat ≤ 102 then some (c.toNat - 87)
  else none

/-- The number whose digits are those of `acc` followed by the text, if the text holds hex digits only. -/
def hexAccumulate (acc : Nat) : Token → Option Nat
  | [] => some acc
  | c :: cs =>
    match hexDigit c with
    | some d => hexAccumulate (acc * 16 + d) cs
    | none => none

/-- One or more hex digits, most significant first. -/
def hexNumber (t : Token) : Option Nat :=
  if t = [] then none else hexAccumulate 0 t

/-- `hexvalue` (30_encoding.md R94): one or more hex digits with an optional `0x` or `$` before them. -/
def hexValue : Token → Option Nat
  | '$' :: t => hexNumber t
  | '0' :: 'x' :: t => hexNumber t
  | '0' :: 'X' :: t => hexNumber t
  | t => hexNumber t

/-- The character of a hex digit. -/
def hexChar (d : Nat) : Char :=
  if d < 10 then Char.ofNat (48 + d) else Char.ofNat (55 + d)

/-- The hex digits of `n` written before `acc`, in at most `fuel` digits. -/
def hexDigitsBefore : Nat → Nat → Token → Token
  | 0, _, acc => acc
  | fuel + 1, n, acc =>
    if n < 16 then hexChar n :: acc else hexDigitsBefore fuel (n / 16) (hexChar (n % 16) :: acc)

/-- The hex digits of `n`, most significant first. -/
def hexText (n : Nat) : Token :=
  hexDigitsBefore (n + 1) n []

/-! ## Tokens -/

/-- The keyword `ram` (30_encoding.md R86). -/
def kwRam : Token := ['r', 'a', 'm']

/-- The keyword `alu` (30_encoding.md R86). -/
def kwAlu : Token := ['a', 'l', 'u']

/-- The keyword `?psr` (30_encoding.md R86). -/
def kwPsr : Token := ['?', 'p', 's', 'r']

/-- The keyword `IB` (30_encoding.md R86). -/
def kwIb : Token := ['I', 'B']

/-- The reserved key `fetch` (30_encoding.md R90). -/
def keyFetch : Token := ['f', 'e', 't', 'c', 'h']

/-- The reserved key `interrupt` (30_encoding.md R90). -/
def keyInterrupt : Token := ['i', 'n', 't', 'e', 'r', 'r', 'u', 'p', 't']

/-- The name of a register (10_state.md R21). -/
def RegName.text : RegName → Token
  | .pc => ['p', 'c']
  | .inc => ['i', 'n', 'c']
  | .ir => ['i', 'r']
  | .sp => ['s', 'p']
  | .a => ['a']
  | .b => ['b']
  | .mar => ['m', 'a', 'r']
  | .mdr => ['m', 'd', 'r']
  | .alux => ['a', 'l', 'u', 'x']
  | .aluy => ['a', 'l', 'u', 'y']
  | .alur => ['a', 'l', 'u', 'r']
  | .psr => ['p', 's', 'r']

/-- The 12 registers with their names. -/
def regTokens : List (Token × RegName) :=
  [(RegName.pc.text, .pc), (RegName.inc.text, .inc), (RegName.ir.text, .ir), (RegName.sp.text, .sp),
   (RegName.a.text, .a), (RegName.b.text, .b), (RegName.mar.text, .mar), (RegName.mdr.text, .mdr),
   (RegName.alux.text, .alux), (RegName.aluy.text, .aluy), (RegName.alur.text, .alur), (RegName.psr.text, .psr)]

/-- The register a token names. -/
def regOf (t : Token) : Option RegName :=
  regTokens.lookup t

/-- The text of a spec (30_encoding.md R87). -/
def Spelling.specText (sp : Spelling) : Spec → Token
  | .whole => sp.whole
  | .high => sp.high
  | .low => sp.low
  | .i => sp.fieldI
  | .e => sp.fieldE
  | .int => sp.fieldInt
  | .v => sp.fieldV
  | .n => sp.fieldN
  | .z => sp.fieldZ
  | .c => sp.fieldC

/-- The ten specs with their texts. -/
def Spelling.specTokens (sp : Spelling) : List (Token × Spec) :=
  [(sp.whole, .whole), (sp.high, .high), (sp.low, .low), (sp.fieldI, .i), (sp.fieldE, .e), (sp.fieldInt, .int),
   (sp.fieldV, .v), (sp.fieldN, .n), (sp.fieldZ, .z), (sp.fieldC, .c)]

/-- The spec a token names. -/
def Spelling.specOf (sp : Spelling) (t : Token) : Option Spec :=
  sp.specTokens.lookup t

/-- The bits a `?psr` source may name, with their texts (`RC_TEST_BIT`, 30_encoding.md R96). -/
def Spelling.bitTokens (sp : Spelling) : List (Token × PsrBit) :=
  [(sp.fieldI, .i), (sp.fieldE, .e), (sp.fieldV, .v), (sp.fieldN, .n), (sp.fieldZ, .z), (sp.fieldC, .c)]

/-- The 11 ALU operations with their texts (30_encoding.md R95). -/
def Spelling.aluTokens (sp : Spelling) : List (Token × Instr) :=
  [(sp.opAdd, .aluAdd), (sp.opAddc, .aluAddc), (sp.opSub, .aluSub), (sp.opShl, .aluShl), (sp.opShr, .aluShr),
   (sp.opAnd, .aluAnd), (sp.opOr, .aluOr), (sp.opNot, .aluNot), (sp.opInc, .aluInc), (sp.opDec, .aluDec),
   (sp.opSwap, .aluSwap)]

/-- The expected values of a `?psr` test (30_encoding.md R88). -/
def expectOf : Token → Option Bool
  | ['0'] => some false
  | ['1'] => some true
  | _ => none

/-- A spelling that can be read back: the literal marker is no other source id, the specs are pairwise distinct and so
are the ALU operations. -/
def Spelling.wf (sp : Spelling) : Bool :=
  decide (sp.lit ∉ [kwIb, kwRam, kwAlu, kwPsr] ++ regTokens.map Prod.fst) &&
    decide (sp.specTokens.map Prod.fst).Nodup && decide (sp.aluTokens.map Prod.fst).Nodup

/-! ## Tuples -/

/-- A destination register with its spec, turned into the instruction that `make` builds of them. -/
def resolveDst (sp : Spelling) (t : Tuple) (make : RegName → Spec → Instr) : Except RomCheck Instr :=
  match regOf t.dst, sp.specOf t.dspec with
  | some d, some ds => .ok (make d ds)
  | _, _ => .error .resolves

/-- Row 2 of 30_encoding.md R89: a literal. -/
def resolveLit (sp : Spelling) (t : Tuple) : Except RomCheck Instr :=
  match hexValue t.sspec with
  | some value => resolveDst sp t (.lit value)
  | none => .error .literalParses

/-- Row 4 of 30_encoding.md R89: a `ram` source, whose spec must be `WHOLE`; `ram` to `ram` is refused. -/
def resolveRamRd (sp : Spelling) (t : Tuple) : Except RomCheck Instr :=
  if t.dst = kwRam then .error .noRamToRam
  else if t.sspec = sp.whole then resolveDst sp t .ramRd
  else .error .ramWhole

/-- Row 5 of 30_encoding.md R89: a `ram` destination, whose spec must be `WHOLE`. -/
def resolveRamWr (sp : Spelling) (t : Tuple) : Except RomCheck Instr :=
  if t.dspec = sp.whole then
    match regOf t.src, sp.specOf t.sspec with
    | some s, some ss => .ok (.ramWr s ss)
    | _, _ => .error .resolves
  else .error .ramWhole

/-- Row 6 of 30_encoding.md R89: an `alu` source; the destination fields are ignored. -/
def resolveAlu (sp : Spelling) (t : Tuple) : Except RomCheck Instr :=
  match sp.aluTokens.lookup t.sspec with
  | some i => .ok i
  | none => .error .resolves

/-- Row 7 of 30_encoding.md R89: a `?psr` source; the destination spec is ignored. -/
def resolvePsrTest (sp : Spelling) (t : Tuple) : Except RomCheck Instr :=
  match sp.bitTokens.lookup t.sspec with
  | none => .error .testBit
  | some bit =>
    match expectOf t.dst with
    | some e => .ok (.psrTest bit e)
    | none => .error .testExpect

/-- Row 8 of 30_encoding.md R89: register to register. -/
def resolveMove (sp : Spelling) (t : Tuple) : Except RomCheck Instr :=
  match regOf t.src, sp.specOf t.sspec with
  | some s, some ss => resolveDst sp t (.move s ss)
  | _, _ => .error .resolves

/-- The resolution of a tuple, row by row, the first match winning (30_encoding.md R89, log 18). -/
def resolve (sp : Spelling) (t : Tuple) : Except RomCheck Instr :=
  if t.src = [] ∧ t.sspec = [] ∧ t.dst = [] ∧ t.dspec = [] then .ok .nopEntry
  else if t.src = sp.lit then resolveLit sp t
  else if t.src = kwIb then resolveDst sp t .litIb
  else if t.src = kwRam then resolveRamRd sp t
  else if t.dst = kwRam then resolveRamWr sp t
  else if t.src = kwAlu then resolveAlu sp t
  else if t.src = kwPsr then resolvePsrTest sp t
  else resolveMove sp t

/-- A tuple decoded: resolved, and refused where a spec does not apply to its register (30_encoding.md R96, R97). -/
def decodeTuple (sp : Spelling) (t : Tuple) : Except RomCheck Instr :=
  match resolve sp t with
  | .error c => .error c
  | .ok i => if i.specsApply then .ok i else .error .specApplies

/-- The tuples of a microprogram decoded in order; the first that is refused refuses the program. -/
def decodeProgram (sp : Spelling) : List Tuple → Except RomCheck Program
  | [] => .ok []
  | t :: ts =>
    match decodeTuple sp t with
    | .error c => .error c
    | .ok i =>
      match decodeProgram sp ts with
      | .error c => .error c
      | .ok p => .ok (i :: p)

/-! ## Macro words and keys -/

/-- The opcode byte of a macro word (30_encoding.md R81, 43_sequencer.md R184). -/
def opByte (w : Word) : Byte := w.extractLsb' 8 8

/-- The low byte `d8` of a macro word (30_encoding.md R81). -/
def lowByte (w : Word) : Byte := w.extractLsb' 0 8

/-- The macro word of an opcode byte and a low byte. -/
def macroWord (op d8 : Byte) : Word := op ++ d8

/-- The decode class of a macro word, tested in the order of 30_encoding.md R84; `isDefined` says whether the ROM has an
Execute program for the word's opcode byte. -/
def decodeMacro (isDefined : Bool) (haltOp : Byte) (w : Word) : Instr :=
  if isDefined = false then .undefined (opByte w) (lowByte w)
  else if opByte w = haltOp then .halt (lowByte w)
  else .exec (opByte w) (lowByte w)

/-- The key a record's key text selects (30_encoding.md R91, R92): `fetch`, `interrupt`, or two hex digits in either
case. The two reserved keys are matched with their letter case, which is the model's choice: R92 decides for hex digits only
(DESIGN CHOICE, log 24). `none` is a malformed key. -/
def parseKey (t : Token) : Option ProgKey :=
  if t = keyFetch then some .fetch
  else if t = keyInterrupt then some .interrupt
  else
    match t with
    | [h, l] =>
      match hexDigit h, hexDigit l with
      | some dh, some dl => some (.exec (BitVec.ofNat 8 (dh * 16 + dl)))
      | _, _ => none
    | _ => none

/-- The key text of a program key. -/
def ProgKey.text : ProgKey → Token
  | .fetch => keyFetch
  | .interrupt => keyInterrupt
  | .exec op => [hexChar (op.toNat / 16), hexChar (op.toNat % 16)]

/-- The decoder, total on every text and word. -/
def decode (sp : Spelling) (isDefined : Byte → Bool) (haltOp : Byte) : Encoded → Except DecodeError Instr
  | .tuple t =>
    match decodeTuple sp t with
    | .ok i => .ok i
    | .error c => .error (.check c)
  | .word w => .ok (decodeMacro (isDefined (opByte w)) haltOp w)
  | .key k =>
    if k = keyFetch then .ok .fetch
    else if k = keyInterrupt then .ok .interrupt
    else .error .notAReservedKey

/-- The instruction of a macro word where no opcode table is loaded, as after `State.reset`: no opcode byte has an
Execute program, so each is undefined (30_encoding.md R84 class 1, log 11). The microinstruction rows of the table are
tuples of texts and have no bits (30_encoding.md R85). -/
def decodeTableWord (nbits w : Nat) : Option Instr :=
  if nbits = 16 then some (decodeMacro false Config.haltOpcode (BitVec.ofNat 16 w)) else none

/-! ## The encoder -/

/-- The tuple of an ALU operation: `alu` and the operation code (30_encoding.md R89 row 6). -/
def aluTuple (op : Token) : Encoded :=
  .tuple ⟨kwAlu, op, [], []⟩

/-- The text or word of an instruction, from the encodings of the opcode table. -/
def encode (sp : Spelling) (haltOp : Byte) : Instr → Encoded
  | .nopEntry => .tuple ⟨[], [], [], []⟩
  | .lit value d ds => .tuple ⟨sp.lit, hexText value, d.text, sp.specText ds⟩
  | .litIb d ds => .tuple ⟨kwIb, [], d.text, sp.specText ds⟩
  | .ramRd d ds => .tuple ⟨kwRam, sp.whole, d.text, sp.specText ds⟩
  | .ramWr s ss => .tuple ⟨s.text, sp.specText ss, kwRam, sp.whole⟩
  | .aluAdd => aluTuple sp.opAdd
  | .aluAddc => aluTuple sp.opAddc
  | .aluSub => aluTuple sp.opSub
  | .aluShl => aluTuple sp.opShl
  | .aluShr => aluTuple sp.opShr
  | .aluAnd => aluTuple sp.opAnd
  | .aluOr => aluTuple sp.opOr
  | .aluNot => aluTuple sp.opNot
  | .aluInc => aluTuple sp.opInc
  | .aluDec => aluTuple sp.opDec
  | .aluSwap => aluTuple sp.opSwap
  | .psrTest bit expect => .tuple ⟨kwPsr, sp.specText bit.spec, if expect then ['1'] else ['0'], []⟩
  | .move s ss d ds => .tuple ⟨s.text, sp.specText ss, d.text, sp.specText ds⟩
  | .undefined op d8 => .word (macroWord op d8)
  | .halt d8 => .word (macroWord haltOp d8)
  | .exec op d8 => .word (macroWord op d8)
  | .fetch => .key keyFetch
  | .interrupt => .key keyInterrupt

end Sys2Proof
end

