-- ==== Sys2Proof/Machine/State.lean ====
section
/-! DEFINITION. The state of the core as plain data (10_state.md), the reasons a step can stop, and the state after
reset. -/

namespace Sys2Proof.Machine

/-- The register file: exactly 12 Words (10_state.md R21). -/
structure Regs where
  pc : Word
  inc : Word
  ir : Word
  sp : Word
  a : Word
  b : Word
  mar : Word
  mdr : Word
  alux : Word
  aluy : Word
  alur : Word
  psr : Word
deriving DecidableEq, Repr, Inhabited

/-- The memory array as (word address, Word) pairs (20_memory.md R50, log 1): addresses strictly rising and below 4096,
no entry equal to what an unlisted address reads as. `Memory.wf` says that the form holds. -/
abbrev Memory := List (Nat × Word)

/-- The microcode ROM (30_encoding.md R90): the programs by key, and the records with a malformed key, which are kept
and never selected (30_encoding.md R91). -/
structure Rom where
  entries : List (ProgKey × Program)
  literal : List Record
deriving DecidableEq, Repr, Inhabited

/-- The parameters of a core (00_scope.md R9), fixed for a machine: nothing a step does writes them (log 3). -/
structure Params where
  haltOpcode : Byte
  ibValue : Word
  spelling : Spelling
  policy : InterruptPolicy
  boundary : InterruptBoundary
  resetRegs : Regs
deriving DecidableEq, Repr, Inhabited

/-- Why a core is faulted (60_exceptions.md R203, R204): the one reason the spec names, with the address. -/
inductive FaultReason where
  | memReadOutOfRange (addr : Word)
deriving DecidableEq, Repr, Inhabited

/-- The run state (10_state.md R33): `RUNNING`, `HALTED(HALT_OP)`, `HALTED(DECODE_ERROR, op)`, `FAULTED(reason)`. -/
inductive RunState where
  | running
  | halted
  | decodeError (op : Byte)
  | faulted (r : FaultReason)
deriving DecidableEq, Repr, Inhabited

/-- The state of the core. -/
structure State where
  /-- The 12 registers (10_state.md R21). -/
  regs : Regs
  /-- The 4096 memory words (20_memory.md R50). -/
  mem : Memory
  /-- The key of the current microprogram (10_state.md R32). -/
  prog : ProgKey
  /-- The index of the next microinstruction (10_state.md R32). -/
  uidx : Nat
  /-- The run state (10_state.md R33). -/
  run : RunState
  /-- The pending key code (10_state.md R35). -/
  keyPending : Option Nat
  /-- The output stream, oldest Word first (10_state.md R36). -/
  out : List Word
  /-- The microcode ROM (10_state.md R37). -/
  rom : Rom
  /-- The parameters of this core (00_scope.md R9, log 3). -/
  cfg : Params
  /-- The model's own: the Boolean `early` that `exec_micro` returns (41_microinstructions.md R130, log 8). -/
  early : Bool
  /-- The model's own: the inputs the host has supplied for the coming steps, next one first (log 7). -/
  inputs : List StepInput
  /-- The model's own: the number of the next step, which indexes the free step inputs (log 7). -/
  tick : Nat
deriving DecidableEq, Repr, Inhabited

/-- Why no step is taken. The spec defines a step in the run state `RUNNING` only (43_sequencer.md R180,
92_eei_decisions.md D35); `step` raises these, no instruction does. Safe: the core itself stops there (log 9). -/
inductive Fault where
  /-- `step` on a core that has decoded HALT. Raised by `step`; safe. -/
  | stoppedAtHalt
  /-- `step` on a core that has decoded an undefined opcode. Raised by `step`; safe. -/
  | stoppedAtDecodeError (op : Byte)
  /-- `step` on a faulted core. Raised by `step`; safe. -/
  | stoppedAtFault (r : FaultReason)
deriving DecidableEq, Repr, Inhabited

/-- What the model gives no meaning to. -/
inductive Refusal where
  /-- An instruction without a meaning in this model. Raised by an arm of `exec`; safe. -/
  | notModelled (mnemonic : String)
  /-- A spec that does not apply to its register: "the spec refuses them at load" (30_encoding.md R96, R97). Raised by
  the meanings that name a register and by the host's register write; safe (log 14). -/
  | specNotApplicable
  /-- The ROM fails a check of 30_encoding.md R96: "no run of the core is defined for it". Raised by `step` and by the
  host's reset; safe (log 13). -/
  | romNotAdmitted (c : RomCheck)
  /-- A cursor that 10_state.md R32 excludes: no such program, or an index not below its length. Raised by `step`; safe
  (log 13). -/
  | cursorOutOfRange
  /-- Restart is defined from `HALTED` only (70_reset_and_hazards.md R252). Raised by the host's restart; safe. -/
  | restartNotDefined
deriving DecidableEq, Repr, Inhabited

/-- The registers at 0x0000 (10_state.md R39, 92_eei_decisions.md D20). -/
def Regs.zero : Regs :=
  { pc := 0, inc := 0, ir := 0, sp := 0, a := 0, b := 0, mar := 0, mdr := 0, alux := 0, aluy := 0, alur := 0, psr := 0 }

/-- The parameters of the machine after reset: the values 00_scope.md R9 settles, and free constants where it leaves a
parameter open (logs 4, 5, 6). -/
def Params.initial : Params :=
  { haltOpcode := Config.haltOpcode
    ibValue := Config.ibValue
    spelling := Config.spelling
    policy := .eager
    boundary := .anyProgramBoundary
    resetRegs := Regs.zero }

/-- The machine right after power-up reset (10_state.md R39, 70_reset_and_hazards.md R250), with no opcode table and no
ROM text loaded (log 10): the host's reset action loads them. -/
def State.reset : State :=
  { regs := Regs.zero
    mem := []
    prog := .fetch
    uidx := 0
    run := .running
    keyPending := none
    out := []
    rom := { entries := [], literal := [] }
    cfg := Params.initial
    early := false
    inputs := []
    tick := 0 }

end Sys2Proof.Machine
end

