-- ==== Sys2Proof/Machine/Registers.lean ====
section
/-! DEFINITION. Reading and storing one register of the register file by its name (10_state.md R21). -/

namespace Sys2Proof.Machine

/-- The current value of a register, `x[r]` (00_scope.md R12). -/
def Regs.get (g : Regs) : RegName → Word
  | .pc => g.pc
  | .inc => g.inc
  | .ir => g.ir
  | .sp => g.sp
  | .a => g.a
  | .b => g.b
  | .mar => g.mar
  | .mdr => g.mdr
  | .alux => g.alux
  | .aluy => g.aluy
  | .alur => g.alur
  | .psr => g.psr

/-- The register file with one register replaced; the rules of a write are in `State.write`. -/
def Regs.set (g : Regs) (r : RegName) (v : Word) : Regs :=
  match r with
  | .pc => { g with pc := v }
  | .inc => { g with inc := v }
  | .ir => { g with ir := v }
  | .sp => { g with sp := v }
  | .a => { g with a := v }
  | .b => { g with b := v }
  | .mar => { g with mar := v }
  | .mdr => { g with mdr := v }
  | .alux => { g with alux := v }
  | .aluy => { g with aluy := v }
  | .alur => { g with alur := v }
  | .psr => { g with psr := v }

/-- The current value of a register of a state, `x[r]` (00_scope.md R12). -/
def State.reg (s : State) (r : RegName) : Word := s.regs.get r

end Sys2Proof.Machine
end

