-- ==== Sys2Proof/Machine/Operands.lean ====
section
/-! DEFINITION. Operand addressing: the bit-field read and the masked read-modify-write of 40_operand_addressing.md, the
one path by which registers are read and written. -/

namespace Sys2Proof.Machine

/-- A value as the host may give it: a number, possibly negative or too large, or something that is no number
(10_state.md R20). -/
inductive Value where
  | num (v : Int)
  | nonNumeric
deriving DecidableEq, Repr, Inhabited

/-- `norm` (10_state.md R20): 0 for a negative or non-numeric value, else the value mod 65536. -/
def normValue : Value → Word
  | .num v => if v < 0 then 0 else BitVec.ofNat 16 v.toNat
  | .nonNumeric => 0

/-- `norm` of a natural number: the number mod 65536. -/
def normNat (n : Nat) : Word := BitVec.ofNat 16 n

/-- A single bit as a Word. -/
def bitWord (b : Bool) : Word := if b then 1 else 0

/-- The shift of a field (40_operand_addressing.md R110). -/
def fieldShift : Spec → Nat
  | .whole => 0
  | .high => 8
  | .low => 0
  | .i => 13
  | .e => 12
  | .int => 8
  | .v => 3
  | .n => 2
  | .z => 1
  | .c => 0

/-- The width of a field (40_operand_addressing.md R110). -/
def fieldWidth : Spec → Nat
  | .whole => 16
  | .high => 8
  | .low => 8
  | .i => 1
  | .e => 1
  | .int => 3
  | .v => 1
  | .n => 1
  | .z => 1
  | .c => 1

/-- The low bits of a field's width, `2^w − 1`. -/
def fieldOnes (f : Spec) : Word := BitVec.ofNat 16 (2 ^ fieldWidth f - 1)

/-- The in-place mask of a field (40_operand_addressing.md R110). -/
def fieldMask (f : Spec) : Word := fieldOnes f <<< fieldShift f

/-- `PSR_MASK` (10_state.md R29). -/
def psrMask : Word := 0x370F

/-- The field of a Word, right-aligned and zero-extended (40_operand_addressing.md R111, R112). -/
def extractField (f : Spec) (x : Word) : Word := (x >>> fieldShift f) &&& fieldOnes f

/-- The Word with one field replaced by the low bits of a value (40_operand_addressing.md R115). -/
def insertField (f : Spec) (old v : Word) : Word :=
  (old &&& ~~~ fieldMask f) ||| ((v &&& fieldOnes f) <<< fieldShift f)

/-- What a write of `v` under a spec leaves in register `r`, whose value was `old` (40_operand_addressing.md R113): the
increment of `inc` first (R114), then the field (R115), then the mask of `psr` (R116). -/
def writtenValue (r : RegName) (f : Spec) (old v : Word) : Word :=
  let v := if r = .inc then v + 1 else v
  let new := if f = .whole then v else insertField f old v
  if r = .psr then new &&& psrMask else new

/-- `Read(r, spec)` (40_operand_addressing.md R111, R112). -/
def State.read (s : State) (r : RegName) (f : Spec) : Word :=
  if f = .whole then s.reg r else extractField f (s.reg r)

/-- `Write(r, spec, v)` of a normalised value, on the register file (40_operand_addressing.md R113). -/
def Regs.write (g : Regs) (r : RegName) (f : Spec) (v : Word) : Regs :=
  g.set r (writtenValue r f (g.get r) v)

/-- `Write(r, spec, v)` of a normalised value (40_operand_addressing.md R113). -/
def State.write (s : State) (r : RegName) (f : Spec) (v : Word) : State :=
  { s with regs := s.regs.write r f v }

/-- A single-bit field of `psr`, as a Boolean. -/
def State.flag (s : State) (f : Spec) : Bool := s.read .psr f == 1

end Sys2Proof.Machine
end

