-- ==== Sys2Proof/Machine/Flags.lean ====
section
/-! DEFINITION. The results and flags of the 11 ALU operations (42_alu.md), and the common behaviour that stores them. -/

namespace Sys2Proof.Machine

/-- Bit 15 of a Word, `b15` (42_alu.md). -/
def signBit (v : Word) : Bool := v.msb

/-- The two's-complement overflow test (42_alu.md R151). -/
def ovf (p q r : Word) : Bool := signBit p == signBit q && signBit r != signBit p

/-- What an operation yields: the result, the carry and the overflow (42_alu.md R150). -/
structure AluOut where
  r : Word
  c : Bool
  v : Bool
deriving DecidableEq, Repr, Inhabited

/-- `d + 65536 if d < 0 else d`, the result of a difference (42_alu.md R155, R162). -/
def wrapDifference (d : Int) : Word := BitVec.ofInt 16 (if d < 0 then d + 65536 else d)

/-- `ADD` (42_alu.md R153). -/
def opAdd (x y : Word) (_cin : Bool) : AluOut :=
  let sum := x.toNat + y.toNat
  let r := normNat sum
  { r := r, c := decide (65536 ≤ sum), v := ovf x y r }

/-- `ADDC` (42_alu.md R154). -/
def opAddc (x y : Word) (cin : Bool) : AluOut :=
  let sum := x.toNat + y.toNat + cin.toNat
  let r := normNat sum
  { r := r, c := decide (65536 ≤ sum), v := ovf x y r }

/-- `SUB` (42_alu.md R155): the overflow test stands on the two operands as they are. -/
def opSub (x y : Word) (_cin : Bool) : AluOut :=
  let r := wrapDifference ((x.toNat : Int) - (y.toNat : Int))
  { r := r, c := decide (x.toNat < y.toNat), v := ovf x y r }

/-- `SHL` (42_alu.md R156). -/
def opShl (x _y : Word) (_cin : Bool) : AluOut :=
  { r := x <<< 1, c := signBit x, v := false }

/-- `SHR`, logical (42_alu.md R157). -/
def opShr (x _y : Word) (_cin : Bool) : AluOut :=
  { r := x >>> 1, c := x.getLsbD 0, v := false }

/-- `AND` (42_alu.md R158). -/
def opAnd (x y : Word) (_cin : Bool) : AluOut :=
  { r := x &&& y, c := false, v := false }

/-- `OR` (42_alu.md R159). -/
def opOr (x y : Word) (_cin : Bool) : AluOut :=
  { r := x ||| y, c := false, v := false }

/-- `NOT` (42_alu.md R160). -/
def opNot (x _y : Word) (_cin : Bool) : AluOut :=
  { r := normNat (65535 - x.toNat), c := false, v := false }

/-- `INC` (42_alu.md R161). -/
def opInc (x _y : Word) (_cin : Bool) : AluOut :=
  let r := normNat (x.toNat + 1)
  { r := r, c := x == 0xFFFF, v := ovf x 0x0000 r }

/-- `DEC` (42_alu.md R162). -/
def opDec (x _y : Word) (_cin : Bool) : AluOut :=
  let r := wrapDifference ((x.toNat : Int) - 1)
  { r := r, c := x == 0x0000, v := ovf x 0xFFFF r }

/-- `SWAP` (42_alu.md R163). -/
def opSwap (x _y : Word) (_cin : Bool) : AluOut :=
  { r := ((x &&& 0xFF) <<< 8) ||| (x >>> 8), c := false, v := false }

/-- The register file after an operation's outcome is stored: `alur`, then V, N, Z and C of `psr`, each through the
operand-addressing write path (42_alu.md R150, R152). The stored `alur`, of which N and Z are computed, is the result. -/
def Regs.storeAlu (g : Regs) (o : AluOut) : Regs :=
  ((((g.write .alur .whole o.r).write .psr .v (bitWord o.v)).write .psr .n (bitWord (signBit o.r))).write .psr .z
    (bitWord (o.r == 0))).write .psr .c (bitWord o.c)

/-- The state after an operation's outcome is stored (42_alu.md R150). -/
def State.storeAlu (s : State) (o : AluOut) : State :=
  { s with regs := s.regs.storeAlu o }

/-- `alu(op)` (42_alu.md R150): the inputs are `alux`, `aluy` and the C flag, read first. -/
def State.alu (s : State) (op : Word → Word → Bool → AluOut) : State :=
  s.storeAlu (op (s.reg .alux) (s.reg .aluy) (s.flag .c))

end Sys2Proof.Machine
end

