-- ==== Sys2Proof/Machine/Memory.lean ====
section
/-! DEFINITION. The memory array: reading and storing one Word, and the canonical form of the list (20_memory.md R50 to
R54). -/

namespace Sys2Proof.Machine

/-- `MEM_WORDS` (00_scope.md R9): addresses 0x000 to 0xFFF exist. -/
def memWords : Nat := 4096

/-- What an address that the list does not hold reads as: 0x0000 (10_state.md R39, log 2). -/
def Memory.unlisted : Word := 0

/-- The Word at an address. -/
def Memory.read : Memory → Nat → Word
  | [], _ => Memory.unlisted
  | (a, v) :: m, x => if a = x then v else Memory.read m x

/-- One entry put before a list whose addresses are all higher, unless it says what the address reads as unlisted. -/
def Memory.cons (a : Nat) (v : Word) (m : Memory) : Memory :=
  if v = Memory.unlisted then m else (a, v) :: m

/-- The memory with the Word at an address replaced, in canonical form. -/
def Memory.store : Memory → Nat → Word → Memory
  | [], x, w => Memory.cons x w []
  | (a, v) :: m, x, w =>
    if x < a then Memory.cons x w ((a, v) :: m)
    else if x = a then Memory.cons x w m
    else (a, v) :: Memory.store m x w

/-- The canonical form from an address on: addresses rising from `lo` and below `memWords`, no entry that repeats what
an unlisted address reads as. -/
def Memory.wfFrom : Nat → Memory → Bool
  | _, [] => true
  | lo, (a, v) :: m => decide (lo ≤ a) && decide (a < memWords) && decide (v ≠ Memory.unlisted) && Memory.wfFrom (a + 1) m

/-- The canonical form of the memory. -/
def Memory.wf (m : Memory) : Bool := Memory.wfFrom 0 m

/-- A write at any address: stored below `memWords`, "silently dropped" from there on (20_memory.md R53). -/
def Memory.write (m : Memory) (addr : Nat) (v : Word) : Memory :=
  if addr < memWords then Memory.store m addr v else m

end Sys2Proof.Machine
end

