-- ==== Sys2Proof/Machine/Rom.lean ====
section
/-! DEFINITION. The microcode ROM: selection of a program by its key and the check of 30_encoding.md R96 on the resolved
table. -/

namespace Sys2Proof.Machine

/-- The program under a key, `ROM[key]` (30_encoding.md R90). -/
def Rom.program (r : Rom) (k : ProgKey) : Option Program :=
  r.entries.lookup k

/-- Which opcode bytes have an Execute program (30_encoding.md R84). -/
def Rom.defines (r : Rom) (op : Byte) : Bool :=
  (r.program (.exec op)).isSome

/-- The first check of 30_encoding.md R96 that the resolved table fails. The checks on texts (`RC_LITERAL_PARSES`,
`RC_TEST_EXPECT`, `RC_TEST_BIT`, `RC_RAM_WHOLE`, `RC_NO_RAM_TO_RAM`) are made when the texts are resolved. -/
def Rom.check (r : Rom) : Option RomCheck :=
  if (r.program .fetch).isNone then some .hasFetch
  else if (r.program .interrupt).isNone then some .hasInterrupt
  else if ¬ (r.entries.map Prod.fst).Nodup then some .uniqueKeys
  else if ¬ r.entries.all (fun e => e.2.all Instr.isMicro) then some .resolves
  else if ¬ r.entries.all (fun e => e.2.all Instr.specsApply) then some .specApplies
  else if ¬ r.entries.all (fun e => Program.nopFirstOnly e.2) then some .nopFirstOnly
  else none

/-- The table with the given programs for `fetch` and, where it has none, for `interrupt`. -/
def Rom.withFetch (r : Rom) (p : Program) : Rom :=
  { r with entries :=
      (.fetch, p) ::
        (match r.program .interrupt with
         | some _ => r.entries.filter (fun e => e.1 != .fetch)
         | none => (.interrupt, []) :: r.entries.filter (fun e => e.1 != .fetch)) }

end Sys2Proof.Machine
end

