-- ==== Sys2Proof/Machine/Ops.lean ====
section
/-! DEFINITION. The named operations over the state that the meanings share: memory access, the fault, the halts, taking
an interrupt and the return from it, and the input of a step. -/

namespace Sys2Proof.Machine

/-- The outcome of an instruction or of a step. -/
abbrev Result := Host.Outcome State Fault Refusal

/-- The next state of a form whose specs apply, and the refusal of any other (30_encoding.md R97, log 14). -/
def whenApplies (ok : Bool) (s : State) : Result :=
  if ok then .next s else .refused .specNotApplicable

/-- `MemRead` (20_memory.md R52): none where no memory is. -/
def State.memRead (s : State) (addr : Nat) : Option Word :=
  if addr < memWords then some (s.mem.read addr) else none

/-- `MemWrite` of a normalised value (20_memory.md R53). -/
def State.memWrite (s : State) (addr : Nat) (v : Word) : State :=
  { s with mem := s.mem.write addr v }

/-- `raise Fault(reason)` (60_exceptions.md R203): the run state becomes `FAULTED`, nothing else changes. -/
def State.raise (s : State) (r : FaultReason) : State :=
  { s with run := .faulted r }

/-- The halt of a decoded HALT (43_sequencer.md R186): the cursor's index is 0. -/
def State.stopHalted (s : State) : State :=
  { s with run := .halted, uidx := 0 }

/-- The halt of an undefined opcode, which records it (43_sequencer.md R185). -/
def State.stopUndefined (s : State) (op : Byte) : State :=
  { s with run := .decodeError op, uidx := 0 }

/-- The selection of a program: its key becomes current, from its first entry on (43_sequencer.md R183, R187). -/
def State.select (s : State) (k : ProgKey) : State :=
  { s with prog := k, uidx := 0 }

/-- Interrupt entry: "switching the current program to Interrupt and resetting `microIndex` to 0"; nothing is saved and
no flag is cleared (60_exceptions.md R211, R212). -/
def State.enterInterrupt (s : State) : State := s.select .interrupt

/-- The return from Interrupt and from Execute: the fall back to Fetch (60_exceptions.md R214, 43_sequencer.md R183). -/
def State.fallBackToFetch (s : State) : State := s.select .fetch

/-- The input of the coming step: the one the host supplied, else a free one (60_exceptions.md R245, log 7). -/
def State.input (s : State) : StepInput :=
  match s.inputs with
  | i :: _ => i
  | [] => Config.stepInput s.tick

/-- The state whose step input is used up. -/
def State.consumeInput (s : State) : State :=
  { s with inputs := s.inputs.tail, tick := s.tick + 1 }

/-- The driver takes an eligible interrupt: always when the policy is `eager`, else as the step's input says
(60_exceptions.md R211). -/
def State.takes (s : State) : Bool :=
  match s.cfg.policy with
  | .eager => true
  | .optional => s.input.takeInterrupt

/-- The boundary admits an interrupt (60_exceptions.md R211). -/
def State.boundaryAdmits (s : State) : Bool :=
  match s.cfg.boundary with
  | .anyProgramBoundary => true
  | .beforeFetchOnly => s.prog == .fetch

/-- The condition of `interrupt_check` (60_exceptions.md R211). -/
def State.interruptEligible (s : State) : Bool :=
  s.run == .running && s.uidx == 0 && s.flag .i && s.flag .e && s.boundaryAdmits

/-- `interrupt_check` (60_exceptions.md R211). -/
def State.interruptCheck (s : State) : State :=
  if s.interruptEligible && s.takes then s.enterInterrupt else s

end Sys2Proof.Machine
end

