-- ==== Sys2Proof/Machine/Devices.lean ====
section
/-! DEFINITION. The MMIO and clock service routine, phase 4 of every step (60_exceptions.md R220 to R228). -/

namespace Sys2Proof.Machine

/-- The input data cell (20_memory.md R55). -/
def inputData : Nat := 0x0E0

/-- The input status cell (20_memory.md R55). -/
def inputStatus : Nat := 0x0E1

/-- The output data cell (20_memory.md R55). -/
def outputData : Nat := 0x0E2

/-- The output status cell (20_memory.md R55). -/
def outputStatus : Nat := 0x0E3

/-- The first of the six clock cells (20_memory.md R55). -/
def clockBase : Nat := 0x0E8

/-- The countdown timer cell (20_memory.md R55). -/
def timerCell : Nat := 0x0EE

/-- `emit` (00_scope.md R12, 10_state.md R36). -/
def State.emit (s : State) (w : Word) : State :=
  { s with out := s.out ++ [w] }

/-- The output handshake (60_exceptions.md R221). -/
def State.outputHandshake (s : State) : State :=
  if s.mem.read outputStatus = 0 then s.memWrite outputStatus 1
  else if s.mem.read outputData ≠ 0 ∧ s.mem.read outputStatus = 1 then
    ((s.emit (s.mem.read outputData)).memWrite outputData 0).memWrite outputStatus 0
  else s

/-- The input handshake (60_exceptions.md R223). -/
def State.inputHandshake (s : State) : State :=
  match s.keyPending with
  | some k => { s.memWrite inputData (normNat k) with keyPending := none }
  | none => if s.mem.read inputStatus ≠ 0 then s.memWrite inputStatus 0 else s

/-- The six clock cells overwritten with the step's clock reading (60_exceptions.md R225). -/
def State.writeClock (s : State) (clk : Clock) : State :=
  (((((s.memWrite clockBase clk.sec).memWrite (clockBase + 1) clk.min).memWrite (clockBase + 2) clk.hour).memWrite
    (clockBase + 3) clk.day).memWrite (clockBase + 4) clk.month).memWrite (clockBase + 5) clk.year

/-- The countdown timer (60_exceptions.md R227). -/
def State.countDown (s : State) : State :=
  if s.mem.read timerCell ≠ 0 then s.memWrite timerCell (s.mem.read timerCell - 1) else s

/-- The parts of `service(clk)` in their order (60_exceptions.md R220), with the clock reading of the step's input. -/
def State.serviceParts (s : State) : State :=
  (s.outputHandshake.inputHandshake.writeClock s.input.clk).countDown

/-- `service(clk)` (60_exceptions.md R220): the memory, the output stream and the pending key are what its parts leave,
and it has no part in anything else (60_exceptions.md R210). -/
def State.service (s : State) : State :=
  { s with
    mem := s.serviceParts.mem
    out := s.serviceParts.out
    keyPending := s.serviceParts.keyPending }

end Sys2Proof.Machine
end

