-- ==== Sys2Proof/Machine/Alu.lean ====
section
/-! DEFINITION. The `ALU` microinstructions (41_microinstructions.md R136), one for each operation of 42_alu.md. -/

namespace Sys2Proof.Machine

/-- `(alu ADD)` (42_alu.md R153). -/
def execAluAdd (s : State) : Result :=
  .next (s.alu opAdd)

/-- `(alu ADDC)` (42_alu.md R154). -/
def execAluAddc (s : State) : Result :=
  .next (s.alu opAddc)

/-- `(alu SUB)` (42_alu.md R155). -/
def execAluSub (s : State) : Result :=
  .next (s.alu opSub)

/-- `(alu SHL)` (42_alu.md R156). -/
def execAluShl (s : State) : Result :=
  .next (s.alu opShl)

/-- `(alu SHR)` (42_alu.md R157). -/
def execAluShr (s : State) : Result :=
  .next (s.alu opShr)

/-- `(alu AND)` (42_alu.md R158). -/
def execAluAnd (s : State) : Result :=
  .next (s.alu opAnd)

/-- `(alu OR)` (42_alu.md R159). -/
def execAluOr (s : State) : Result :=
  .next (s.alu opOr)

/-- `(alu NOT)` (42_alu.md R160). -/
def execAluNot (s : State) : Result :=
  .next (s.alu opNot)

/-- `(alu INC)` (42_alu.md R161). -/
def execAluInc (s : State) : Result :=
  .next (s.alu opInc)

/-- `(alu DEC)` (42_alu.md R162). -/
def execAluDec (s : State) : Result :=
  .next (s.alu opDec)

/-- `(alu SWAP)` (42_alu.md R163). -/
def execAluSwap (s : State) : Result :=
  .next (s.alu opSwap)

end Sys2Proof.Machine
end

