-- ==== Sys2Proof/Machine/Control.lean ====
section
/-! DEFINITION. Conditional termination (41_microinstructions.md R137), the decode classes of a macro word
(43_sequencer.md R185 to R187) and the two reserved programs (43_sequencer.md R183, 60_exceptions.md R211). -/

namespace Sys2Proof.Machine

/-- `PSR_TEST`: `early <- (Read(psr, bit) ≠ expect)`; no register or memory is written (41_microinstructions.md
R137). -/
def execPsrTest (bit : PsrBit) (expect : Bool) (s : State) : Result :=
  .next { s with early := s.read .psr bit.spec != bitWord expect }

/-- An undefined opcode decoded: the core halts and records it (43_sequencer.md R185). The low byte plays no part
(43_sequencer.md R184). -/
def execUndefined (op _d8 : Byte) (s : State) : Result :=
  .next (s.stopUndefined op)

/-- HALT decoded: the core halts, and HALT's own Execute program is not selected (43_sequencer.md R186). -/
def execHalt (_d8 : Byte) (s : State) : Result :=
  .next s.stopHalted

/-- A defined opcode decoded: its Execute program is selected (43_sequencer.md R187). The low byte is left to the
program, which reads it from `ir` (30_encoding.md R82). -/
def execExec (op _d8 : Byte) (s : State) : Result :=
  .next (s.select (.exec op))

/-- The Fetch program selected, after a program that was not Fetch (43_sequencer.md R183). -/
def execFetch (s : State) : Result :=
  .next s.fallBackToFetch

/-- The Interrupt program entered where `interrupt_check` allows it (60_exceptions.md R211). -/
def execInterrupt (s : State) : Result :=
  .next s.interruptCheck

end Sys2Proof.Machine
end

