-- ==== Sys2Proof/Machine/Transfer.lean ====
section
/-! DEFINITION. The data-transfer microinstructions (41_microinstructions.md R131 to R135) and the empty entry
(43_sequencer.md R181). A meaning is phase 1 of a step. -/

namespace Sys2Proof.Machine

/-- `NOP_ENTRY`: "phase 1 does nothing" (43_sequencer.md R181). -/
def execNopEntry (s : State) : Result :=
  .next s

/-- `LIT`: `Write(d, ds, value)` (41_microinstructions.md R131). -/
def execLit (value : Nat) (d : RegName) (ds : Spec) (s : State) : Result :=
  whenApplies (ds.appliesTo d) (s.write d ds (normNat value))

/-- `LIT_IB`: `Write(d, ds, IB_VALUE)` (41_microinstructions.md R132). -/
def execLitIb (d : RegName) (ds : Spec) (s : State) : Result :=
  whenApplies (ds.appliesTo d) (s.write d ds s.cfg.ibValue)

/-- `RAM_RD`: the Word at `mar` is written to the destination, or the read faults and the destination is not written
(41_microinstructions.md R133). -/
def execRamRd (d : RegName) (ds : Spec) (s : State) : Result :=
  whenApplies (ds.appliesTo d)
    (match s.memRead (s.reg .mar).toNat with
     | some v => s.write d ds v
     | none => s.raise (.memReadOutOfRange (s.reg .mar)))

/-- `RAM_WR`: the source is stored at `mar`, or dropped where no memory is (41_microinstructions.md R134). -/
def execRamWr (src : RegName) (ss : Spec) (s : State) : Result :=
  whenApplies (ss.appliesTo src) (s.memWrite (s.reg .mar).toNat (s.read src ss))

/-- `MOVE`: the source is read completely, then the destination is written (41_microinstructions.md R135). -/
def execMove (src : RegName) (ss : Spec) (d : RegName) (ds : Spec) (s : State) : Result :=
  whenApplies (ss.appliesTo src && ds.appliesTo d) (s.write d ds (s.read src ss))

end Sys2Proof.Machine
end

