-- ==== Sys2Proof/Machine/Dispatch.lean ====
section
/-! DEFINITION. The meaning of every instruction, one arm for each constructor. -/

namespace Sys2Proof.Machine

def exec (i : Instr) (s : State) : Host.Outcome State Fault Refusal :=
  match i with
  | .nopEntry => Sys2Proof.Machine.execNopEntry s
  | .lit value d ds => Sys2Proof.Machine.execLit value d ds s
  | .litIb d ds => Sys2Proof.Machine.execLitIb d ds s
  | .ramRd d ds => Sys2Proof.Machine.execRamRd d ds s
  | .ramWr src ss => Sys2Proof.Machine.execRamWr src ss s
  | .aluAdd => Sys2Proof.Machine.execAluAdd s
  | .aluAddc => Sys2Proof.Machine.execAluAddc s
  | .aluSub => Sys2Proof.Machine.execAluSub s
  | .aluShl => Sys2Proof.Machine.execAluShl s
  | .aluShr => Sys2Proof.Machine.execAluShr s
  | .aluAnd => Sys2Proof.Machine.execAluAnd s
  | .aluOr => Sys2Proof.Machine.execAluOr s
  | .aluNot => Sys2Proof.Machine.execAluNot s
  | .aluInc => Sys2Proof.Machine.execAluInc s
  | .aluDec => Sys2Proof.Machine.execAluDec s
  | .aluSwap => Sys2Proof.Machine.execAluSwap s
  | .psrTest bit expect => Sys2Proof.Machine.execPsrTest bit expect s
  | .move src ss d ds => Sys2Proof.Machine.execMove src ss d ds s
  | .undefined op d8 => Sys2Proof.Machine.execUndefined op d8 s
  | .halt d8 => Sys2Proof.Machine.execHalt d8 s
  | .exec op d8 => Sys2Proof.Machine.execExec op d8 s
  | .fetch => Sys2Proof.Machine.execFetch s
  | .interrupt => Sys2Proof.Machine.execInterrupt s

end Sys2Proof.Machine
end

