-- ==== Sys2Proof/Machine/Sequencer.lean ====
section
/-! DEFINITION. The microcode sequencer: the five phases of a step (43_sequencer.md R180) around the meanings. -/

namespace Sys2Proof.Machine

/-- The microinstruction that phase 1 executes, of a program `P` at index `u` (43_sequencer.md R180, R181): none but the
empty entry in a program that is empty or whose first entry is empty. `none` is an index outside the program. -/
def currentMicro (P : Program) (u : Nat) : Option Instr :=
  match P with
  | [] => some .nopEntry
  | .nopEntry :: _ => if u < P.length then some .nopEntry else none
  | _ => P[u]?

/-- The current microprogram, `ROM[prog]`. -/
def State.program (s : State) : Option Program := s.rom.program s.prog

/-- Its length, `len(ROM[prog])`. -/
def State.programLength (s : State) : Nat :=
  match s.program with
  | some P => P.length
  | none => 0

/-- The microinstruction of the coming step, of a ROM that passes its check (30_encoding.md R96) and a cursor that is
within its program (10_state.md R32). -/
def State.fetchMicro (s : State) : Except Refusal Instr :=
  match s.rom.check with
  | some c => .error (.romNotAdmitted c)
  | none =>
    match s.program with
    | none => .error .cursorOutOfRange
    | some P =>
      match currentMicro P s.uidx with
      | none => .error .cursorOutOfRange
      | some i => .ok i

/-- Phase 2: `next <- L if early else uidx + 1` (43_sequencer.md R182). -/
def State.nextIndex (s : State) : Nat :=
  if s.early then s.programLength else s.uidx + 1

/-- The program ends in this step: `next ≥ L` (43_sequencer.md R182). -/
def State.programEnds (s : State) : Bool :=
  decide (s.programLength ≤ s.nextIndex)

/-- The macro word in `ir` decoded (43_sequencer.md R184, 30_encoding.md R84). -/
def State.decodeIr (s : State) : Instr :=
  decodeMacro (s.rom.defines (opByte (s.reg .ir))) s.cfg.haltOpcode (s.reg .ir)

/-- The program transition at the end of a program: Fetch after any program but Fetch, and after Fetch the decode of
`ir` (43_sequencer.md R183). -/
def State.transition (s : State) : Instr :=
  if s.prog = .fetch then s.decodeIr else .fetch

/-- Phases 2 and 3 of a step (43_sequencer.md R180). -/
def State.advance (s : State) : Result :=
  if s.programEnds then exec s.transition s else .next { s with uidx := s.nextIndex }

/-- Phases 2 to 5 of a step, after its microinstruction (43_sequencer.md R180). `early` lives within one step. -/
def State.finishStep (s : State) : Result :=
  match s.advance with
  | .next s' =>
    match exec .interrupt (State.service { s' with early := false }) with
    | .next t => .next t.consumeInput
    | .fault f => .fault f
    | .refused r => .refused r
  | .fault f => .fault f
  | .refused r => .refused r

/-- A step of a running core: phase 1, and phases 2 to 5 unless phase 1 faulted (43_sequencer.md R180). -/
def State.runStep (s : State) : Result :=
  match s.fetchMicro with
  | .error r => .refused r
  | .ok i =>
    match exec i s with
    | .next s' => if s'.run = .running then s'.finishStep else .next s'.consumeInput
    | .fault f => .fault f
    | .refused r => .refused r

/-- A step: defined in the run state `RUNNING` only (43_sequencer.md R180, 92_eei_decisions.md D35). -/
def State.stepOnce (s : State) : Result :=
  match s.run with
  | .running => s.runStep
  | .halted => .fault .stoppedAtHalt
  | .decodeError op => .fault (.stoppedAtDecodeError op)
  | .faulted r => .fault (.stoppedAtFault r)

/-- The state in which the coming step decodes the macro word `w` and does nothing else: an empty Fetch program, the
word in `ir`, the core running at the start of Fetch (43_sequencer.md R181, R184; log 10). -/
def State.placeMacroWord (s : State) (w : Word) : State :=
  { s with
    regs := s.regs.set .ir w
    rom := s.rom.withFetch []
    prog := .fetch
    uidx := 0
    run := .running
    early := false }

end Sys2Proof.Machine
end

