-- ==== Sys2Proof/Machine/Step.lean ====
section
/-! DEFINITION. The step of the core (43_sequencer.md R180), and the state whose next step runs a given macro word. -/

namespace Sys2Proof.Machine

/-- One step of the core (43_sequencer.md R180). -/
def step (s : State) : Host.Outcome State Fault Refusal := s.stepOnce

/-- The state whose next step decodes the 16-bit macro word `w` and runs its decode class (log 10, log 11). -/
def State.withFetchWord (s : State) (_nbits w : Nat) : State :=
  s.placeMacroWord (BitVec.ofNat 16 w)

end Sys2Proof.Machine
end

