-- ==== Sys2Proof/Machine/Loader.lean ====
section
/-! DEFINITION. What fills the ROM and the memory before the core runs: the opcode-table input (30_encoding.md R91 to
R96) and the ROM text (20_memory.md R60). -/

namespace Sys2Proof.Machine

/-- The records resolved in order (30_encoding.md R89 to R91). A record with a malformed key is kept as it is. -/
def loadRecords (sp : Spelling) : List Record → Except RomCheck Rom
  | [] => .ok { entries := [], literal := [] }
  | r :: rs =>
    match parseKey r.key with
    | none =>
      match loadRecords sp rs with
      | .ok rom => .ok { rom with literal := r :: rom.literal }
      | .error c => .error c
    | some k =>
      match decodeProgram sp r.program with
      | .error c => .error c
      | .ok p =>
        match loadRecords sp rs with
        | .ok rom => .ok { rom with entries := (k, p) :: rom.entries }
        | .error c => .error c

/-- The opcode table resolved and admitted (30_encoding.md R96). -/
def loadTable (sp : Spelling) (rs : List Record) : Except RomCheck Rom :=
  match loadRecords sp rs with
  | .error c => .error c
  | .ok rom =>
    match rom.check with
    | some c => .error c
    | none => .ok rom

/-- White space at the ends of a line of the ROM text (log 16). -/
def isSpace (c : Char) : Bool :=
  c == ' ' || c == '\t' || c == '\r' || c == '\x0b' || c == '\x0c'

/-- A space or a tab, `WS` (20_memory.md R60). -/
def isBlank (c : Char) : Bool := c == ' ' || c == '\t'

/-- The lines of a text. -/
def splitLines : Token → List Token
  | [] => [[]]
  | c :: cs =>
    match splitLines cs with
    | l :: ls => if c = '\n' then [] :: l :: ls else (c :: l) :: ls
    | [] => [[c]]

/-- The line without its leading and trailing white space. -/
def trimLine (l : Token) : Token :=
  ((l.dropWhile isSpace).reverse.dropWhile isSpace).reverse

/-- The address of an `org` line: `"org" WS+ "$"? HEX+`, the whole line, in either case (20_memory.md R60). -/
def orgLine : Token → Option Nat
  | o :: r :: g :: w :: rest =>
    if (o = 'o' ∨ o = 'O') ∧ (r = 'r' ∨ r = 'R') ∧ (g = 'g' ∨ g = 'G') ∧ isBlank w = true then
      match rest.dropWhile isBlank with
      | '$' :: h => hexNumber h
      | h => hexNumber h
    else none
  | _ => none

/-- The Word of a data line: its first four characters, all hex digits (20_memory.md R60). -/
def dataLine : Token → Option Word
  | a :: b :: c :: d :: _ => (hexNumber [a, b, c, d]).map (BitVec.ofNat 16)
  | _ => none

/-- The lines of a ROM text loaded from a cursor on (20_memory.md R60). -/
def loadLines : Nat → Memory → List Token → Memory
  | _, m, [] => m
  | cursor, m, l :: ls =>
    match orgLine (trimLine l) with
    | some addr => loadLines addr m ls
    | none =>
      match dataLine (trimLine l) with
      | some w => loadLines (cursor + 1) (m.write cursor w) ls
      | none => loadLines cursor m ls

/-- `load_rom_text` (20_memory.md R60). -/
def loadRomText (text : Token) (m : Memory) : Memory :=
  loadLines 0 m (splitLines text)

end Sys2Proof.Machine
end

