-- ==== Sys2Proof/Machine/HostActions.lean ====
section
/-! DEFINITION. What the host may do between two steps (60_exceptions.md R240 to R245, 70_reset_and_hazards.md R250 to
R252). -/

namespace Sys2Proof.Machine

/-- The host's actions on the state; its reads (60_exceptions.md R243) change nothing. -/
inductive HostAction where
  /-- A key press (60_exceptions.md R241). -/
  | pressKey (k : Nat)
  /-- A register write through the normalised path (60_exceptions.md R242). -/
  | writeReg (r : RegName) (f : Spec) (v : Value)
  /-- A memory write through the normalised path (60_exceptions.md R242). -/
  | writeMem (addr : Nat) (v : Value)
  /-- The input of a coming step, after those supplied before (60_exceptions.md R245, log 7). -/
  | supply (i : StepInput)
  /-- Restart after a halt (70_reset_and_hazards.md R252). -/
  | restart
  /-- Power-up reset with an opcode table and a ROM text (70_reset_and_hazards.md R250). -/
  | reset (table : List Record) (romText : Token)
deriving DecidableEq, Repr, Inhabited

/-- The reset values of the registers, `RESET_REGS`; `psr` has no reserved bit set (10_state.md R39). -/
def Params.powerUpRegs (p : Params) : Regs :=
  { p.resetRegs with psr := p.resetRegs.psr &&& psrMask }

/-- Power-up reset with a loaded table and the ROM text (70_reset_and_hazards.md R250). The parameters stay, and so do
the supplied inputs and the number of the next step (log 19). -/
def State.powerUp (s : State) (rom : Rom) (romText : Token) : State :=
  { regs := Params.powerUpRegs s.cfg
    mem := loadRomText romText []
    prog := .fetch
    uidx := 0
    run := .running
    keyPending := none
    out := []
    rom := rom
    cfg := s.cfg
    early := false
    inputs := s.inputs
    tick := s.tick }

/-- Restart (70_reset_and_hazards.md R252): from `HALTED` only, the run state and the cursor, nothing else. -/
def State.restart (s : State) : Result :=
  match s.run with
  | .halted => .next { s.fallBackToFetch with run := .running }
  | .decodeError _ => .next { s.fallBackToFetch with run := .running }
  | .running => .refused .restartNotDefined
  | .faulted _ => .refused .restartNotDefined

/-- The state after an action of the host, or the refusal of the action. -/
def hostAct (h : HostAction) (s : State) : Result :=
  match h with
  | .pressKey k => .next { s with keyPending := some k }
  | .writeReg r f v => whenApplies (f.appliesTo r) (s.write r f (normValue v))
  | .writeMem addr v => .next (s.memWrite addr (normValue v))
  | .supply i => .next { s with inputs := s.inputs ++ [i] }
  | .restart => s.restart
  | .reset table romText =>
    match loadTable s.cfg.spelling table with
    | .ok rom => .next (s.powerUp rom romText)
    | .error c => .refused (.romNotAdmitted c)

end Sys2Proof.Machine
end

