-- ==== Sys2Proof/Safety.lean ====
section
/-! DEFINITION. What counts as a sound state and as a safe run: the invariant of the state, the runs of the core with the
host's actions between the steps, and how a run ends (60_exceptions.md R246). -/

namespace Sys2Proof

/-- The registers a microinstruction may write (10_state.md R22): its destination, and for an ALU operation `alur` and
`psr`. -/
def Instr.writesOnly (i : Instr) : List RegName :=
  match i with
  | .lit _ d _ => [d]
  | .litIb d _ => [d]
  | .ramRd d _ => [d]
  | .move _ _ d _ => [d]
  | .nopEntry => []
  | .ramWr _ _ => []
  | .aluAdd => [.alur, .psr]
  | .aluAddc => [.alur, .psr]
  | .aluSub => [.alur, .psr]
  | .aluShl => [.alur, .psr]
  | .aluShr => [.alur, .psr]
  | .aluAnd => [.alur, .psr]
  | .aluOr => [.alur, .psr]
  | .aluNot => [.alur, .psr]
  | .aluInc => [.alur, .psr]
  | .aluDec => [.alur, .psr]
  | .aluSwap => [.alur, .psr]
  | .psrTest _ _ => []
  | .undefined _ _ => []
  | .halt _ => []
  | .exec _ _ => []
  | .fetch => []
  | .interrupt => []

/-- The microinstructions that always go on to the next entry: neither a `?psr` test nor a memory read. -/
def Instr.goesOn : Instr → Bool
  | .psrTest _ _ => false
  | .ramRd _ _ => false
  | .nopEntry => true
  | .lit _ _ _ => true
  | .litIb _ _ => true
  | .ramWr _ _ => true
  | .aluAdd => true
  | .aluAddc => true
  | .aluSub => true
  | .aluShl => true
  | .aluShr => true
  | .aluAnd => true
  | .aluOr => true
  | .aluNot => true
  | .aluInc => true
  | .aluDec => true
  | .aluSwap => true
  | .move _ _ _ _ => true
  | .undefined _ _ => false
  | .halt _ => false
  | .exec _ _ => false
  | .fetch => false
  | .interrupt => false

end Sys2Proof

namespace Sys2Proof.Machine

/-- The cursor of 10_state.md R32: an Execute program that is current exists, and the index is below the length of the
current program, or 0. -/
def State.cursorOk (s : State) : Prop :=
  (∀ op, s.prog = .exec op → s.rom.defines op = true) ∧ (s.uidx = 0 ∨ s.uidx < s.programLength)

/-- The reserved bits of `psr` are 0 (10_state.md R30). -/
def State.psrOk (s : State) : Prop := s.reg .psr &&& ~~~ psrMask = 0

/-- "At halt the cursor is `(FETCH, 0)`" (92_eei_decisions.md D18, 43_sequencer.md R185, R186). -/
def State.haltOk (s : State) : Prop :=
  (s.run = .halted ∨ ∃ op, s.run = .decodeError op) → s.prog = .fetch ∧ s.uidx = 0

/-- A recorded fault is a read outside the memory (60_exceptions.md R203). -/
def State.faultOk (s : State) : Prop :=
  ∀ addr, s.run = .faulted (.memReadOutOfRange addr) → memWords ≤ addr.toNat

/-- The invariant of the core. -/
structure State.Inv (s : State) : Prop where
  /-- The memory is in canonical form. -/
  mem : s.mem.wf = true
  /-- The reserved bits of `psr` are 0 (10_state.md R30). -/
  psr : s.psrOk
  /-- The cursor is within its program (10_state.md R32). -/
  cursor : s.cursorOk
  /-- A halted core stands at the start of Fetch. -/
  halt : s.haltOk
  /-- A faulted core has recorded an address outside the memory. -/
  fault : s.faultOk
  /-- Between two steps no `?psr` test is pending (log 8). -/
  early : s.early = false

/-! ## Frames: what a transition leaves alone -/

/-- Every register but the listed ones keeps its value. -/
def State.KeepsRegsBut (s t : State) (rs : List RegName) : Prop := ∀ r, r ∉ rs → t.reg r = s.reg r

/-- Every Word of memory reads as before. -/
def State.KeepsMem (s t : State) : Prop := ∀ a, t.mem.read a = s.mem.read a

/-- The cursor, the run state and the model's `early` are as before. -/
def State.KeepsControl (s t : State) : Prop :=
  t.prog = s.prog ∧ t.uidx = s.uidx ∧ t.run = s.run ∧ t.early = s.early

/-- The pending key, the output stream, the ROM, the parameters and the host's supplied inputs are as before. -/
def State.KeepsHost (s t : State) : Prop :=
  t.keyPending = s.keyPending ∧ t.out = s.out ∧ t.rom = s.rom ∧ t.cfg = s.cfg ∧ t.inputs = s.inputs ∧ t.tick = s.tick

/-- What an ALU microinstruction leaves alone (42_alu.md R150): every register but `alur` and `psr`, the fields I, E and
INT of `psr`, the memory and everything else; the reserved bits of `psr` are 0 after it. -/
def State.KeepsButAlu (s t : State) : Prop :=
  s.KeepsRegsBut t [.alur, .psr] ∧ t.read .psr .i = s.read .psr .i ∧ t.read .psr .e = s.read .psr .e ∧
    t.read .psr .int = s.read .psr .int ∧ t.psrOk ∧ s.KeepsMem t ∧ s.KeepsControl t ∧ s.KeepsHost t

/-- What a write of `v` under a field spec leaves of register `r` (40_operand_addressing.md R113 to R117): the field holds
the low bits of `v`, right-aligned, whatever its other bits (of `v + 1` for `inc`, masked for `psr`); every bit outside the
field is as before, but for the reserved bits of `psr`, which are 0; every other register is as before. -/
def State.FieldWritten (s t : State) (r : RegName) (f : Spec) (v : Word) : Prop :=
  (∀ k, k < fieldWidth f → (t.reg r).getLsbD (fieldShift f + k) =
    ((if r = .inc then v + 1 else v).getLsbD k && (decide (r ≠ .psr) || psrMask.getLsbD (fieldShift f + k)))) ∧
  (∀ k, k < 16 → (fieldMask f).getLsbD k = false → (r ≠ .psr ∨ psrMask.getLsbD k = true) →
    (t.reg r).getLsbD k = (s.reg r).getLsbD k) ∧
  (r = .psr → t.psrOk) ∧ s.KeepsRegsBut t [r]

/-- The sign bit of a Word, bit 15 (00_scope.md R11), as a comparison of numbers. -/
def negative (w : Word) : Bool := decide (32768 ≤ w.toNat)

/-- The two's-complement overflow test (42_alu.md R151) on the numbers. -/
def overflowTest (p q r : Word) : Bool := decide (negative p = negative q ∧ negative r ≠ negative p)

/-- N and Z of `psr` say of `alur` what 42_alu.md R152 says. -/
def State.nzOfAlur (t : State) : Prop :=
  t.flag .n = negative (t.reg .alur) ∧ t.flag .z = decide ((t.reg .alur).toNat = 0)

/-- The device and clock cells (20_memory.md R55). -/
def deviceCells : List Nat := [0x0E0, 0x0E1, 0x0E2, 0x0E3, 0x0E8, 0x0E9, 0x0EA, 0x0EB, 0x0EC, 0x0ED, 0x0EE]

/-- A ROM text of one data line for each Word, four hex digits and a line end (20_memory.md R60). -/
def romTextOf : List Word → Token
  | [] => []
  | w :: ws =>
    [hexChar (w.toNat / 4096), hexChar (w.toNat / 256 % 16), hexChar (w.toNat / 16 % 16), hexChar (w.toNat % 16),
      Char.ofNat 10] ++ romTextOf ws

/-! ## Runs -/

/-- One move of the machine: a step of the core or an action of the host (60_exceptions.md R240). -/
inductive Move : State → State → Prop where
  | step {s t : State} (h : Machine.step s = .next t) : Move s t
  | host {s t : State} (a : HostAction) (h : hostAct a s = .next t) : Move s t

/-- The states reached from a state by any steps and host actions. -/
inductive Reaches (s : State) : State → Prop where
  | refl : Reaches s s
  | tail {t u : State} (h : Reaches s t) (m : Move t u) : Reaches s u

/-- The end of a run (60_exceptions.md R246): the run state is not `RUNNING`. -/
def State.ended (s : State) : Prop := s.run ≠ .running

/-- The normal end of a run (60_exceptions.md R246). -/
def State.endedNormally (s : State) : Prop := s.run = .halted

/-- A safe state: no decode error and no fault has been met (60_exceptions.md R246). -/
def State.safe (s : State) : Prop := s.run = .running ∨ s.run = .halted

end Sys2Proof.Machine
end

