-- ==== Sys2Proof/Certificates/Slice0/Obligations.lean ====
section
/-! DEFINITION. The statements about the core, each with the rule of spec/ it formalises. -/

open Sys2Proof Sys2Proof.Machine

/-! ## Encoding -/

/-- Every well-formed instruction is read back from what it is written as, with every operand: the tuples of the opcode
table, the macro words and the reserved keys (30_encoding.md R81, R84, R89, R90, R94). -/
def Obligations.DecodeOfEncodeIsTheInstruction : Prop :=
  ∀ (sp : Spelling) (isDefined : Byte → Bool) (haltOp : Byte) (i : Instr),
    sp.wf = true → i.wf isDefined haltOp = true → decode sp isDefined haltOp (encode sp haltOp i) = .ok i

/-- Every macro word is of a class that is well-formed for the table, and is written back as it was (30_encoding.md
R81, R84). -/
def Obligations.MacroWordIsWrittenBack : Prop :=
  ∀ (sp : Spelling) (isDefined : Byte → Bool) (haltOp : Byte) (w : Word),
    encode sp haltOp (decodeMacro (isDefined (opByte w)) haltOp w) = .word w ∧
      (decodeMacro (isDefined (opByte w)) haltOp w).wf isDefined haltOp = true

/-- The decoder answers well-formed instructions only: its specs apply (30_encoding.md R96, R97) and its opcode byte
is of its class (R84). The applicability is the spec's decision D11. -/
def Obligations.DecoderAnswersWellFormedOnly : Prop :=
  ∀ (sp : Spelling) (isDefined : Byte → Bool) (haltOp : Byte) (e : Encoded) (i : Instr),
    decode sp isDefined haltOp e = .ok i → i.wf isDefined haltOp = true

/-- A few tuples and a macro word, written out from the opcode table in the spec's example spelling, decode to the
instructions they stand for (30_encoding.md R89, R81). -/
def Obligations.WrittenTuplesDecode : Prop :=
  decodeTuple Spelling.fixture ⟨['p', 'c'], [], ['m', 'a', 'r'], []⟩ = .ok (.move .pc .whole .mar .whole) ∧
  decodeTuple Spelling.fixture ⟨['r', 'a', 'm'], [], ['i', 'r'], []⟩ = .ok (.ramRd .ir .whole) ∧
  decodeTuple Spelling.fixture ⟨['l', 'i', 't'], ['0', 'x', '1', 'f'], ['p', 's', 'r'], ['E']⟩ =
    .ok (.lit 31 .psr .e) ∧
  decodeTuple Spelling.fixture ⟨['a', 'l', 'u'], ['S', 'U', 'B'], [], []⟩ = .ok .aluSub ∧
  decodeTuple Spelling.fixture ⟨['?', 'p', 's', 'r'], ['Z'], ['1'], []⟩ = .ok (.psrTest .z true) ∧
  decodeMacro true 0xFF 0x0742 = .exec 0x07 0x42

/-- Spec applicability: the three word specs on every register, the field specs on `psr` only, on both sides of a
move; a move that breaks it is refused by the decoder and by its meaning, and so are the other data transfers by
theirs (30_encoding.md R97). The applicability is the spec's decision D11; that the meaning refuses is the model's
choice (log 14). -/
def Obligations.SpecsApplyAsStated : Prop :=
  (∀ (f : Spec) (r : RegName), f.appliesTo r = true ↔ (f = .whole ∨ f = .high ∨ f = .low) ∨ r = .psr) ∧
  (∀ (sp : Spelling) (src d : RegName) (ss ds : Spec), sp.wf = true →
    (ss.appliesTo src = false ∨ ds.appliesTo d = false) →
      decodeTuple sp ⟨src.text, sp.specText ss, d.text, sp.specText ds⟩ = .error .specApplies ∧
      ∀ s : State, exec (.move src ss d ds) s = .refused .specNotApplicable) ∧
  ∀ (s : State) (r : RegName) (f : Spec), f.appliesTo r = false →
    (∀ value : Nat, exec (.lit value r f) s = .refused .specNotApplicable) ∧
    exec (.litIb r f) s = .refused .specNotApplicable ∧ exec (.ramRd r f) s = .refused .specNotApplicable ∧
    exec (.ramWr r f) s = .refused .specNotApplicable

/-! ## Operand addressing -/

/-- The field table: shift, width, in-place mask and the registers each spec applies to (40_operand_addressing.md
R110). The applicability is the spec's decision D11. -/
def Obligations.FieldTableIsAsStated : Prop :=
  [Spec.high, .low, .i, .e, .int, .v, .n, .z, .c].map (fun f => (fieldShift f, fieldWidth f, fieldMask f)) =
    [(8, 8, 0xFF00), (0, 8, 0x00FF), (13, 1, 0x2000), (12, 1, 0x1000), (8, 3, 0x0700), (3, 1, 0x0008), (2, 1, 0x0004),
      (1, 1, 0x0002), (0, 1, 0x0001)] ∧
  (∀ r : RegName, Spec.high.appliesTo r = true ∧ Spec.low.appliesTo r = true) ∧
  ∀ (f : Spec) (r : RegName), f ∈ [Spec.i, .e, .int, .v, .n, .z, .c] → (f.appliesTo r = true ↔ r = .psr)

/-- Reads are right-aligned and zero-extended, on the numbers (40_operand_addressing.md R111, R112). -/
def Obligations.ReadsAreZeroExtended : Prop :=
  ∀ s : State,
    (∀ r : RegName, s.read r .whole = s.reg r ∧ (s.read r .high).toNat = (s.reg r).toNat / 256 ∧
      (s.read r .low).toNat = (s.reg r).toNat % 256) ∧
    (s.read .psr .i).toNat = (s.reg .psr).toNat / 8192 % 2 ∧ (s.read .psr .e).toNat = (s.reg .psr).toNat / 4096 % 2 ∧
    (s.read .psr .int).toNat = (s.reg .psr).toNat / 256 % 8 ∧ (s.read .psr .v).toNat = (s.reg .psr).toNat / 8 % 2 ∧
    (s.read .psr .n).toNat = (s.reg .psr).toNat / 4 % 2 ∧ (s.read .psr .z).toNat = (s.reg .psr).toNat / 2 % 2 ∧
    (s.read .psr .c).toNat = (s.reg .psr).toNat % 2

/-- A field write puts the low bits of the value into the field, whatever the value's other bits (`HIGH` takes the
low byte, `inc` the value plus 1), and leaves every bit outside its field alone; the reserved bits of `psr` are 0
after it; no other register changes (40_operand_addressing.md R113, R114, R115, R117). R117 is the spec's own
inference from R113, R115 and R116; the mask of `psr` is its decision D13. -/
def Obligations.FieldWritesAreIsolated : Prop :=
  ∀ (s : State) (r : RegName) (f : Spec) (v : Word), f ≠ .whole → f.appliesTo r = true →
    s.FieldWritten (s.write r f v) r f v

/-- A `psr` field written is read back, and no other field changes (40_operand_addressing.md R118). The rule is the
spec's own inference from R112, R113 and R115. -/
def Obligations.PsrFieldsRoundTrip : Prop :=
  ∀ (s : State) (f : Spec) (v : Word), f ∈ [Spec.v, .n, .z, .c, .int, .i, .e] → v.toNat < 2 ^ fieldWidth f →
    (s.write .psr f v).read .psr f = v ∧
    ∀ g, g ∈ [Spec.v, .n, .z, .c, .int, .i, .e] → g ≠ f → (s.write .psr f v).read .psr g = s.read .psr g

/-- A register write of any value the host may give, under every spec: the value is normalised to itself mod 65536,
or to 0 where it is negative or non-numeric; a whole-word write stores that, plus 1 for `inc`, masked for `psr`; a
field write, the interrupt request through the I field of `psr` among them, puts its low bits into the field; a spec
that does not apply is refused (60_exceptions.md R242, 40_operand_addressing.md R113, R120). R120 is the spec's own
inference from R113, R114, R116 and R20, the path of the interrupt request is its decision D33, the mask of `psr`
its decision D13; the refusal is the model's choice (log 20). -/
def Obligations.WholeWritesWrap : Prop :=
  ∀ (s : State) (r : RegName) (v : Value),
    (∀ n : Nat, v = .num n → (normValue v).toNat = n % 65536) ∧
    ((v = .nonNumeric ∨ ∃ n : Int, n < 0 ∧ v = .num n) → normValue v = 0) ∧
    (∃ t, hostAct (.writeReg r .whole v) s = .next t ∧
      (r ≠ .inc → r ≠ .psr → t.reg r = normValue v) ∧
      (r = .inc → (t.reg r).toNat = ((normValue v).toNat + 1) % 65536) ∧
      (r = .psr → t.reg r = normValue v &&& 0x370F) ∧
      s.KeepsRegsBut t [r] ∧ s.KeepsMem t ∧ s.KeepsControl t ∧ s.KeepsHost t) ∧
    (∀ f, f ≠ .whole → f.appliesTo r = true → ∃ t, hostAct (.writeReg r f v) s = .next t ∧
      s.FieldWritten t r f (normValue v) ∧ s.KeepsMem t ∧ s.KeepsControl t ∧ s.KeepsHost t) ∧
    ∀ f, f.appliesTo r = false → hostAct (.writeReg r f v) s = .refused .specNotApplicable

/-- `inc` stores the value plus 1, in the field's width for a byte; reading it gives what was stored (10_state.md
R25, 40_operand_addressing.md R114). -/
def Obligations.IncIncrementsOnWrite : Prop :=
  ∀ (s : State) (v : Word),
    ((s.write .inc .whole v).read .inc .whole).toNat = (v.toNat + 1) % 65536 ∧
    ((s.write .inc .low v).read .inc .whole).toNat = (s.reg .inc).toNat / 256 * 256 + (v.toNat + 1) % 256 ∧
    ((s.write .inc .high v).read .inc .whole).toNat = (v.toNat + 1) % 256 * 256 + (s.reg .inc).toNat % 256

/-- Every write to `psr` stores its result ANDed with `PSR_MASK`, the result being what an ordinary register would
receive; and no instruction sets a reserved bit (10_state.md R30). The mask is the spec's decision D13
(90_conflicts.md C1). -/
def Obligations.PsrReservedBitsStayZero : Prop :=
  (∀ (s : State) (f : Spec) (v : Word),
    (s.write .psr f v).reg .psr = writtenValue .a f (s.reg .psr) v &&& 0x370F) ∧
  ∀ (i : Instr) (s t : State), s.psrOk → exec i s = .next t → t.psrOk

/-! ## Data transfer -/

/-- `LIT` and `LIT_IB` write their value to the destination, and only that (41_microinstructions.md R131, R132). -/
def Obligations.LiteralsAreWritten : Prop :=
  ∀ (s : State) (d : RegName) (ds : Spec), ds.appliesTo d = true →
    (∀ value : Nat, ∃ t, exec (.lit value d ds) s = .next t ∧
      t.reg d = writtenValue d ds (s.reg d) (BitVec.ofNat 16 (value % 65536)) ∧
      s.KeepsRegsBut t [d] ∧ s.KeepsMem t ∧ s.KeepsControl t ∧ s.KeepsHost t) ∧
    ∃ t, exec (.litIb d ds) s = .next t ∧ t.reg d = writtenValue d ds (s.reg d) s.cfg.ibValue ∧
      s.KeepsRegsBut t [d] ∧ s.KeepsMem t ∧ s.KeepsControl t ∧ s.KeepsHost t

/-- `MOVE` writes what the source held before, source and destination alike or not (41_microinstructions.md R135,
40_operand_addressing.md R119). -/
def Obligations.MovesReadBeforeTheyWrite : Prop :=
  ∀ (s : State) (src d : RegName) (ss ds : Spec), ss.appliesTo src = true → ds.appliesTo d = true →
    ∃ t, exec (.move src ss d ds) s = .next t ∧ t.reg d = writtenValue d ds (s.reg d) (s.read src ss) ∧
      s.KeepsRegsBut t [d] ∧ s.KeepsMem t ∧ s.KeepsControl t ∧ s.KeepsHost t

/-- `(r, HIGH -> r, LOW)` copies the high byte into the low byte of the same register, for every register but `inc`
and `psr`; `(inc -> inc)` adds 1 (40_operand_addressing.md R119). The rule is the spec's own inference from R111,
R113 and R135. -/
def Obligations.MovesWithinOneRegister : Prop :=
  ∀ s : State,
    (∀ r : RegName, r ≠ .inc → r ≠ .psr → ∃ t, exec (.move r .high r .low) s = .next t ∧
      (t.reg r).toNat = (s.reg r).toNat / 256 * 256 + (s.reg r).toNat / 256 ∧
      s.KeepsRegsBut t [r] ∧ s.KeepsMem t ∧ s.KeepsControl t ∧ s.KeepsHost t) ∧
    ∃ t, exec (.move .inc .whole .inc .whole) s = .next t ∧ (t.reg .inc).toNat = ((s.reg .inc).toNat + 1) % 65536 ∧
      s.KeepsRegsBut t [.inc] ∧ s.KeepsMem t ∧ s.KeepsControl t ∧ s.KeepsHost t

/-- `RAM_RD` below 4096 writes the Word at `mar` to the destination (41_microinstructions.md R133, 20_memory.md R52). -/
def Obligations.RamReadLoadsTheWordAtMar : Prop :=
  ∀ (s : State) (d : RegName) (ds : Spec), ds.appliesTo d = true → (s.reg .mar).toNat < 4096 →
    ∃ t, exec (.ramRd d ds) s = .next t ∧
      t.reg d = writtenValue d ds (s.reg d) (s.mem.read (s.reg .mar).toNat) ∧
      s.KeepsRegsBut t [d] ∧ s.KeepsMem t ∧ s.KeepsControl t ∧ s.KeepsHost t

/-- `RAM_RD` at 4096 or above faults: the run state alone changes (41_microinstructions.md R133, 60_exceptions.md
R203). The fault is the spec's decision D21; that it is a next state is the model's choice (log 9). -/
def Obligations.RamReadFaultsOutsideMemory : Prop :=
  ∀ (s : State) (d : RegName) (ds : Spec), ds.appliesTo d = true → 4096 ≤ (s.reg .mar).toNat →
    exec (.ramRd d ds) s = .next { s with run := .faulted (.memReadOutOfRange (s.reg .mar)) }

/-- `RAM_WR` stores the zero-extended source at `mar` and nowhere else; at 4096 or above nothing is stored
(41_microinstructions.md R134, 20_memory.md R53). That the source's spec applies is the spec's decision D12. -/
def Obligations.RamWriteStoresAtMar : Prop :=
  ∀ (s : State) (src : RegName) (ss : Spec), s.mem.wf = true → ss.appliesTo src = true →
    ∃ t, exec (.ramWr src ss) s = .next t ∧
      (∀ a, a = (s.reg .mar).toNat → (a < 4096 → t.mem.read a = s.read src ss) ∧ (4096 ≤ a → s.KeepsMem t) ∧
        ∀ b, b ≠ a → t.mem.read b = s.mem.read b) ∧
      s.KeepsRegsBut t [] ∧ s.KeepsControl t ∧ s.KeepsHost t

/-- The Word that the meaning of `RAM_WR` stores is the Word that the meaning of `RAM_RD` loads right after it
(20_memory.md R63, the spec's own inference). The two meanings are phase 1 of a step each (log 12) and are taken
here without the service routine between them, which changes or takes a store to a device cell
(70_reset_and_hazards.md R257). -/
def Obligations.LoadAfterStoreGivesTheWord : Prop :=
  ∀ (s : State) (src d : RegName) (ss : Spec), s.mem.wf = true → ss.appliesTo src = true →
    (s.reg .mar).toNat < 4096 → d ≠ .inc → d ≠ .psr →
    ∃ t u, exec (.ramWr src ss) s = .next t ∧ exec (.ramRd d .whole) t = .next u ∧ u.reg d = s.read src ss

/-- Memories in canonical form that read alike are equal. The form of the list is the model's choice (log 1). -/
def Obligations.CanonicalMemoryIsDeterminedByItsReads : Prop :=
  ∀ m m' : Memory, m.wf = true → m'.wf = true → (∀ a, m.read a = m'.read a) → m = m'

/-- `NOP_ENTRY` does nothing (43_sequencer.md R181). -/
def Obligations.NopEntryDoesNothing : Prop :=
  ∀ s : State, exec .nopEntry s = .next s

/-! ## ALU -/

/-- `ADD` and `ADDC`: the sum mod 65536, the carry out of the whole sum, the overflow test on `alux`, `aluy` and the
result; N and Z of the result (42_alu.md R153, R154). The flags of `ADDC` are the spec's decision D15. -/
def Obligations.AddsGiveSumAndFlags : Prop :=
  ∀ s : State,
    (∃ t, exec .aluAdd s = .next t ∧
      (t.reg .alur).toNat = ((s.reg .alux).toNat + (s.reg .aluy).toNat) % 65536 ∧
      t.flag .c = decide (65536 ≤ (s.reg .alux).toNat + (s.reg .aluy).toNat) ∧
      t.flag .v = overflowTest (s.reg .alux) (s.reg .aluy) (t.reg .alur) ∧ t.nzOfAlur ∧ s.KeepsButAlu t) ∧
    ∃ t, exec .aluAddc s = .next t ∧
      (t.reg .alur).toNat = ((s.reg .alux).toNat + (s.reg .aluy).toNat + (s.read .psr .c).toNat) % 65536 ∧
      t.flag .c = decide (65536 ≤ (s.reg .alux).toNat + (s.reg .aluy).toNat + (s.read .psr .c).toNat) ∧
      t.flag .v = overflowTest (s.reg .alux) (s.reg .aluy) (t.reg .alur) ∧ t.nzOfAlur ∧ s.KeepsButAlu t

/-- `SUB`: the difference, plus 65536 where negative, the borrow as carry, and the overflow test on the operands as they
are (42_alu.md R155). -/
def Obligations.SubGivesDifferenceAndFlags : Prop :=
  ∀ s : State, ∃ t, exec .aluSub s = .next t ∧
    ((t.reg .alur).toNat : Int) =
      (if (s.reg .alux).toNat < (s.reg .aluy).toNat then 65536 else 0) +
        ((s.reg .alux).toNat : Int) - ((s.reg .aluy).toNat : Int) ∧
    t.flag .c = decide ((s.reg .alux).toNat < (s.reg .aluy).toNat) ∧
    t.flag .v = overflowTest (s.reg .alux) (s.reg .aluy) (t.reg .alur) ∧ t.nzOfAlur ∧ s.KeepsButAlu t

/-- `SHL` and `SHR`: one place, a zero entering, the bit shifted out as carry, V cleared (42_alu.md R156, R157).
That `SHR` is logical, so that a zero enters and N is 0, is the spec's own inference in R157. -/
def Obligations.ShiftsMoveOneBit : Prop :=
  ∀ s : State,
    (∃ t, exec .aluShl s = .next t ∧ (t.reg .alur).toNat = (s.reg .alux).toNat * 2 % 65536 ∧
      t.flag .c = negative (s.reg .alux) ∧ t.flag .v = false ∧ t.nzOfAlur ∧ s.KeepsButAlu t) ∧
    ∃ t, exec .aluShr s = .next t ∧ (t.reg .alur).toNat = (s.reg .alux).toNat / 2 ∧
      t.flag .c = decide ((s.reg .alux).toNat % 2 = 1) ∧ t.flag .v = false ∧ t.flag .n = false ∧ t.nzOfAlur ∧
      s.KeepsButAlu t

/-- `AND`, `OR`, `NOT`: bit by bit, C and V cleared (42_alu.md R158, R159, R160). -/
def Obligations.LogicIsBitwise : Prop :=
  ∀ s : State,
    (∃ t, exec .aluAnd s = .next t ∧
      (∀ k, (t.reg .alur).getLsbD k = ((s.reg .alux).getLsbD k && (s.reg .aluy).getLsbD k)) ∧
      t.flag .c = false ∧ t.flag .v = false ∧ t.nzOfAlur ∧ s.KeepsButAlu t) ∧
    (∃ t, exec .aluOr s = .next t ∧
      (∀ k, (t.reg .alur).getLsbD k = ((s.reg .alux).getLsbD k || (s.reg .aluy).getLsbD k)) ∧
      t.flag .c = false ∧ t.flag .v = false ∧ t.nzOfAlur ∧ s.KeepsButAlu t) ∧
    ∃ t, exec .aluNot s = .next t ∧ (t.reg .alur).toNat = 65535 - (s.reg .alux).toNat ∧
      (∀ k, k < 16 → (t.reg .alur).getLsbD k = !(s.reg .alux).getLsbD k) ∧
      t.flag .c = false ∧ t.flag .v = false ∧ t.nzOfAlur ∧ s.KeepsButAlu t

/-- `INC` and `DEC` wrap; their flags are 1 exactly for the operands the spec names (42_alu.md R161, R162, R165).
That V and Z are 1 for one operand only is the spec's own inference in R161, R162 and R165. -/
def Obligations.IncAndDecWrap : Prop :=
  ∀ s : State,
    (∃ t, exec .aluInc s = .next t ∧ (t.reg .alur).toNat = ((s.reg .alux).toNat + 1) % 65536 ∧
      t.flag .c = decide (s.reg .alux = 0xFFFF) ∧ t.flag .v = decide (s.reg .alux = 0x7FFF) ∧
      t.flag .z = decide (s.reg .alux = 0xFFFF) ∧ t.nzOfAlur ∧ s.KeepsButAlu t) ∧
    ∃ t, exec .aluDec s = .next t ∧ (t.reg .alur).toNat = ((s.reg .alux).toNat + 65535) % 65536 ∧
      t.flag .c = decide (s.reg .alux = 0x0000) ∧ t.flag .v = decide (s.reg .alux = 0x8000) ∧
      t.flag .z = decide (s.reg .alux = 0x0001) ∧ t.nzOfAlur ∧ s.KeepsButAlu t

/-- `SWAP` exchanges the bytes and clears C and V (42_alu.md R163), and is undone by a second `SWAP` of its result.
That C and V are 0 is the spec's decision D14 (90_conflicts.md C2); that a second `SWAP` undoes it is a consequence
the spec does not state. -/
def Obligations.SwapExchangesBytes : Prop :=
  ∀ s : State,
    (∃ t, exec .aluSwap s = .next t ∧
      (t.reg .alur).toNat = (s.reg .alux).toNat % 256 * 256 + (s.reg .alux).toNat / 256 ∧
      t.flag .c = false ∧ t.flag .v = false ∧ t.nzOfAlur ∧ s.KeepsButAlu t) ∧
    ∀ t u w : State, exec .aluSwap s = .next t → exec (.move .alur .whole .alux .whole) t = .next u →
      exec .aluSwap u = .next w → w.reg .alur = s.reg .alux

/-! ## Conditional termination, decode classes, the reserved programs -/

/-- `PSR_TEST` sets `early` exactly when the bit differs from the expected value, and writes nothing
(41_microinstructions.md R137). That `early` stands in the state is the model's choice (log 8). -/
def Obligations.PsrTestComparesTheBit : Prop :=
  ∀ (s : State) (bit : PsrBit) (expect : Bool), ∃ t, exec (.psrTest bit expect) s = .next t ∧
    (t.early = true ↔ (s.read .psr bit.spec).toNat ≠ expect.toNat) ∧
    s.KeepsRegsBut t [] ∧ s.KeepsMem t ∧ t.prog = s.prog ∧ t.uidx = s.uidx ∧ t.run = s.run ∧ s.KeepsHost t

/-- The decode classes and the fall back to Fetch: an undefined opcode and HALT stop the core, a defined opcode
selects its Execute program, and each leaves the cursor's index 0 and everything else alone (43_sequencer.md R183,
R185, R186, R187). The run states are the spec's decision D18; that the classes act on any state is the model's
choice (log 15). -/
def Obligations.TransitionsSetTheCursor : Prop :=
  ∀ (s : State) (op d8 : Byte),
    exec (.undefined op d8) s = .next { s with run := .decodeError op, uidx := 0 } ∧
    exec (.halt d8) s = .next { s with run := .halted, uidx := 0 } ∧
    exec (.exec op d8) s = .next { s with prog := .exec op, uidx := 0 } ∧
    exec .fetch s = .next { s with prog := .fetch, uidx := 0 }

/-- Interrupt entry: under exactly the condition of the rule, and it changes `prog` alone (60_exceptions.md R211,
R212). The policy and the boundary are the spec's decisions D16 and D17; the driver's choice is an input (log 7). -/
def Obligations.InterruptEntryChangesOnlyProg : Prop :=
  ∀ s : State,
    ((s.run = .running ∧ s.uidx = 0 ∧ (s.reg .psr).getLsbD 13 = true ∧ (s.reg .psr).getLsbD 12 = true ∧
      (s.cfg.boundary = .anyProgramBoundary ∨ s.prog = .fetch) ∧
      (s.cfg.policy = .eager ∨ s.input.takeInterrupt = true)) →
      exec .interrupt s = .next { s with prog := .interrupt }) ∧
    (¬ (s.run = .running ∧ s.uidx = 0 ∧ (s.reg .psr).getLsbD 13 = true ∧ (s.reg .psr).getLsbD 12 = true ∧
      (s.cfg.boundary = .anyProgramBoundary ∨ s.prog = .fetch) ∧
      (s.cfg.policy = .eager ∨ s.input.takeInterrupt = true)) →
      exec .interrupt s = .next s)

/-! ## The step -/

/-- A step runs the fetched microinstruction; then, unless it faulted, the index is advanced or the program
transition is run, then the service routine, then the interrupt entry (43_sequencer.md R180). The used step input is
dropped. That phase 1 is `exec` and the step stands around it is log 12, that `early` is cleared before the service
routine is log 8, and that a step uses up its input is log 7, each the model's choice. -/
def Obligations.StepRunsTheFetchedInstruction : Prop :=
  (∀ (s : State) (i : Instr), s.run = .running → s.fetchMicro = .ok i →
    Sys2Proof.Machine.step s =
      match exec i s with
      | .next u => if u.run = .running then u.finishStep else .next u.consumeInput
      | .fault f => .fault f
      | .refused r => .refused r) ∧
  (∀ u : State, u.programEnds = false → u.advance = .next { u with uidx := u.nextIndex }) ∧
  (∀ u : State, u.programEnds = true → u.prog = .fetch → u.advance = exec u.decodeIr u) ∧
  (∀ u : State, u.programEnds = true → u.prog ≠ .fetch → u.advance = exec .fetch u) ∧
  ∀ u w t : State, u.advance = .next w → exec .interrupt (State.service { w with early := false }) = .next t →
    u.finishStep = .next t.consumeInput

/-- Which microinstruction a step fetches: the entry at the index (43_sequencer.md R180); `NOP_ENTRY` throughout a
program whose first entry is empty, and in an empty program. R181 says that phase 1 does nothing there, for an empty
program by the spec's decision D8; that the model fetches `NOP_ENTRY` for it is log 23. -/
def Obligations.FetchFollowsTheTable : Prop :=
  ∀ (s : State) (P : Program), s.rom.check = none → s.rom.program s.prog = some P →
    (P = [] → s.fetchMicro = .ok .nopEntry) ∧
    (P[0]? = some .nopEntry → s.uidx < P.length → s.fetchMicro = .ok .nopEntry) ∧
    (P[0]? ≠ some .nopEntry → ∀ i, P[s.uidx]? = some i → s.fetchMicro = .ok i)

/-- A running core with an admitted ROM always takes a step: no refusal, and no stop (43_sequencer.md R180, R190;
60_exceptions.md R201, R202). The refusal of other tables is the spec's decision D10; the model's refusals are its
choice (log 13). -/
def Obligations.AdmittedCoreAlwaysSteps : Prop :=
  ∀ s : State, s.Inv → s.rom.check = none → s.run = .running → ∃ t, Sys2Proof.Machine.step s = .next t

/-- Every step keeps the invariant of the core, from every state that has it. The memory's form and `early` are the
model's own (logs 1, 8). -/
def Obligations.EveryStepKeepsTheInvariant : Prop :=
  ∀ s t : State, s.Inv → Sys2Proof.Machine.step s = .next t → t.Inv

/-- Every action of the host keeps the invariant. The memory's form and `early` are the model's own (logs 1, 8). -/
def Obligations.HostActionsKeepTheInvariant : Prop :=
  ∀ (s t : State) (h : HostAction), s.Inv → hostAct h s = .next t → t.Inv

/-- The invariant holds after reset. The memory's form and `early` are the model's own (logs 1, 8). -/
def Obligations.ResetHasTheInvariant : Prop := State.reset.Inv

/-- Steps and host actions in any order, from any state with the invariant, lead to states with it; from reset with
a table and a text loaded by the host they reach only such states. The invariant is made of 10_state.md R30 and R32,
43_sequencer.md R185 and R186 and 60_exceptions.md R203; the memory's form and `early` in it are the model's own
(logs 1, 8), and how the host loads a table is log 10. -/
def Obligations.ReachedStatesAreSound : Prop :=
  (∀ s t : State, s.Inv → Reaches s t → t.Inv) ∧ ∀ t : State, Reaches State.reset t → t.Inv

/-- The reset state: every register and every Word of memory 0, the cursor `(FETCH, 0)`, `RUNNING`, no key, no
output (10_state.md R39, 70_reset_and_hazards.md R250); that no table is loaded is the model's choice (log 10). The
zeros are the spec's decision D20 (log 2). -/
def Obligations.ResetStateIsAsStated : Prop :=
  (∀ r, State.reset.reg r = 0) ∧ (∀ a, State.reset.mem.read a = 0) ∧ State.reset.prog = .fetch ∧
    State.reset.uidx = 0 ∧ State.reset.run = .running ∧ State.reset.keyPending = none ∧ State.reset.out = []

/-- No step is taken unless the core runs; in each other run state `step` answers the fault of that state
(43_sequencer.md R180). That `step` answers a fault there is the model's choice (log 9). -/
def Obligations.NoStepUnlessRunning : Prop :=
  ∀ s : State,
    (s.run = .halted → Sys2Proof.Machine.step s = .fault .stoppedAtHalt) ∧
    (∀ op, s.run = .decodeError op → Sys2Proof.Machine.step s = .fault (.stoppedAtDecodeError op)) ∧
    (∀ r, s.run = .faulted r → Sys2Proof.Machine.step s = .fault (.stoppedAtFault r)) ∧
    (s.run = .running → s.Inv → s.rom.check = none → ∃ t, Sys2Proof.Machine.step s = .next t)

/-- A faulting read ends the step at once: the run state changes and the step's input is used, nothing else; a
faulted core stays faulted under every step and every host action but a reset (60_exceptions.md R203). The fault is
the spec's decision D21; the step's input is the model's own (log 7). -/
def Obligations.FaultEndsTheStep : Prop :=
  (∀ (s : State) (d : RegName) (ds : Spec), s.run = .running → s.fetchMicro = .ok (.ramRd d ds) →
    4096 ≤ (s.reg .mar).toNat →
    Sys2Proof.Machine.step s =
      .next { s with
        run := .faulted (.memReadOutOfRange (s.reg .mar))
        inputs := s.inputs.tail
        tick := s.tick + 1 }) ∧
  ∀ (s t : State) (r : FaultReason), s.run = .faulted r →
    Sys2Proof.Machine.step s ≠ .next t ∧
    ∀ h : HostAction, hostAct h s = .next t → t.run = .faulted r ∨ ∃ table text, h = .reset table text

/-- A failed `?psr` test ends its program in the same step, whatever entries follow: registers and ordinary memory
are as before, and the cursor stands at the start of a program (41_microinstructions.md R139, 43_sequencer.md R182).
R139 is the spec's own inference; R182 rests on its decision D7. -/
def Obligations.FailedTestEndsTheProgram : Prop :=
  ∀ (s : State) (bit : PsrBit) (e : Bool), s.mem.wf = true → s.run = .running →
    s.fetchMicro = .ok (.psrTest bit e) → (s.read .psr bit.spec).toNat ≠ e.toNat →
    ∃ t, Sys2Proof.Machine.step s = .next t ∧ t.regs = s.regs ∧ t.uidx = 0 ∧
      (∀ a, a ∉ deviceCells → t.mem.read a = s.mem.read a) ∧
      (s.prog ≠ .fetch → t.prog = .fetch ∨ t.prog = .interrupt)

/-- The step that ends Fetch decodes the high byte of `ir`, in the order of the rule: undefined, HALT, defined; the
decode writes no register, and only a defined opcode may be replaced by the Interrupt program (43_sequencer.md R184
to R187, R191; 30_encoding.md R84). The halt states are the spec's decision D18. -/
def Obligations.EndOfFetchDecodes : Prop :=
  ∀ (s u : State) (P : Program) (i : Instr), s.run = .running → s.prog = .fetch → s.rom.program .fetch = some P →
    s.fetchMicro = .ok i → exec i s = .next u → u.run = .running → (u.early = true ∨ P.length ≤ s.uidx + 1) →
    ∃ t, Sys2Proof.Machine.step s = .next t ∧ t.regs = u.regs ∧ t.uidx = 0 ∧
      ∀ op : Byte, op.toNat = (u.reg .ir).toNat / 256 →
        if s.rom.program (.exec op) = none then t.run = .decodeError op ∧ t.prog = .fetch
        else if op = s.cfg.haltOpcode then t.run = .halted ∧ t.prog = .fetch
        else t.run = .running ∧ (t.prog = .exec op ∨
          (t.prog = .interrupt ∧ (t.reg .psr).getLsbD 13 = true ∧ (t.reg .psr).getLsbD 12 = true))

/-- The step that ends an Execute or Interrupt program selects Fetch, or the Interrupt program where I and E are 1;
a program that does not end goes on to its next entry (43_sequencer.md R182, R183). The end of a program is the
spec's decision D7. -/
def Obligations.ProgramsFallBackToFetch : Prop :=
  ∀ (s u : State) (P : Program) (i : Instr), s.run = .running → s.rom.program s.prog = some P →
    s.fetchMicro = .ok i → exec i s = .next u → u.run = .running →
    ((u.early = true ∨ P.length ≤ s.uidx + 1) → s.prog ≠ .fetch →
      ∃ t, Sys2Proof.Machine.step s = .next t ∧ t.regs = u.regs ∧ t.uidx = 0 ∧ t.run = .running ∧
        (t.prog = .fetch ∨
          (t.prog = .interrupt ∧ (t.reg .psr).getLsbD 13 = true ∧ (t.reg .psr).getLsbD 12 = true))) ∧
    ((u.early = false ∧ s.uidx + 1 < P.length) →
      ∃ t, Sys2Proof.Machine.step s = .next t ∧ t.regs = u.regs ∧ t.uidx = s.uidx + 1 ∧ t.run = .running ∧
        t.prog = s.prog)

/-- The Interrupt program is entered only at a microprogram boundary and only with I and E both 1 at the end of the
step (60_exceptions.md R216). The rule is the spec's own inference from R211. -/
def Obligations.InterruptsOnlyAtBoundaries : Prop :=
  ∀ s t : State, Sys2Proof.Machine.step s = .next t → s.prog ≠ .interrupt → t.prog = .interrupt →
    t.uidx = 0 ∧ t.run = .running ∧ (t.reg .psr).getLsbD 13 = true ∧ (t.reg .psr).getLsbD 12 = true

/-- With the decided policy and boundary, a step that leaves the core running at a boundary with I and E both 1
leaves it in the Interrupt program, also after the Interrupt program itself (60_exceptions.md R211, R215). The
policy and the boundary are the spec's decisions D16 and D17. -/
def Obligations.EagerInterruptsAreTaken : Prop :=
  ∀ s t : State, s.cfg.policy = .eager → s.cfg.boundary = .anyProgramBoundary → Sys2Proof.Machine.step s = .next t →
    t.run = .running → t.uidx = 0 → (t.reg .psr).getLsbD 13 = true → (t.reg .psr).getLsbD 12 = true →
    t.prog = .interrupt

/-- A straight-line program takes as many steps as it has entries (one if it has none), standing at entry `n` after
`n` of them, and leaves its cursor at the start of a program (43_sequencer.md R189). The rule is the spec's own
inference from R180 to R187. -/
def Obligations.ActivationTakesItsLength : Prop :=
  ∀ (s : State) (P : Program), s.rom.check = none → s.run = .running → s.early = false →
    s.rom.program s.prog = some P → (∀ i ∈ P, i.goesOn = true) → s.uidx = 0 →
    (∀ n, n < P.length → ∃ t, Host.Core.run Sys2Proof.core n s = .next t ∧ t.prog = s.prog ∧ t.uidx = n ∧
      t.run = .running) ∧
    ∃ t, Host.Core.run Sys2Proof.core (max 1 P.length) s = .next t ∧ t.uidx = 0 ∧
      (s.prog ≠ .fetch → t.prog = .fetch ∨ t.prog = .interrupt)

/-- A step changes no register but those its microinstruction names: the destination, or `alur` and `psr` for the ALU;
`pc` too changes only so (10_state.md R22, R24). -/
def Obligations.StepsWriteOnlyTheNamedRegisters : Prop :=
  ∀ (s t : State) (i : Instr), s.fetchMicro = .ok i → Sys2Proof.Machine.step s = .next t →
    s.KeepsRegsBut t i.writesOnly

/-- The ROM and the parameters never change: no instruction, no step and no host action but a reset writes the ROM,
and nothing at all writes the parameters (10_state.md R37, 00_scope.md R9). That the parameters stand in the state
is the model's choice (log 3). -/
def Obligations.RomIsReadOnly : Prop :=
  (∀ (i : Instr) (s t : State), exec i s = .next t → t.rom = s.rom ∧ t.cfg = s.cfg) ∧
  (∀ s t : State, Sys2Proof.Machine.step s = .next t → t.rom = s.rom ∧ t.cfg = s.cfg) ∧
  ∀ (h : HostAction) (s t : State), hostAct h s = .next t →
    t.cfg = s.cfg ∧ (t.rom = s.rom ∨ ∃ table text, h = .reset table text)

/-! ## The service routine -/

/-- The output handshake: status 0 becomes 1; a nonzero datum with status 1 is emitted and both cells are cleared;
otherwise nothing happens (60_exceptions.md R221). That the whole Word is emitted is the spec's decision D22. -/
def Obligations.OutputHandshakeIsAsStated : Prop :=
  ∀ s : State, s.mem.wf = true →
    (s.mem.read 0x0E3 = 0 → s.service.mem.read 0x0E3 = 1 ∧ s.service.mem.read 0x0E2 = s.mem.read 0x0E2 ∧
      s.service.out = s.out) ∧
    (s.mem.read 0x0E3 = 1 → s.mem.read 0x0E2 ≠ 0 → s.service.out = s.out ++ [s.mem.read 0x0E2] ∧
      s.service.mem.read 0x0E2 = 0 ∧ s.service.mem.read 0x0E3 = 0) ∧
    (s.mem.read 0x0E3 ≠ 0 → (s.mem.read 0x0E3 ≠ 1 ∨ s.mem.read 0x0E2 = 0) →
      s.service.out = s.out ∧ s.service.mem.read 0x0E2 = s.mem.read 0x0E2 ∧
      s.service.mem.read 0x0E3 = s.mem.read 0x0E3)

/-- The input handshake: a pending key is written to 0x0E0 and is no longer pending; without one the status is
cleared (60_exceptions.md R220, R223, R224). That the key code is any natural number, normalised to a Word, and that
a key leaves the status alone are the spec's decisions D23 and D40. -/
def Obligations.InputHandshakeIsAsStated : Prop :=
  ∀ s : State, s.mem.wf = true → s.service.keyPending = none ∧
    (∀ k, s.keyPending = some k → (s.service.mem.read 0x0E0).toNat = k % 65536 ∧
      s.service.mem.read 0x0E1 = s.mem.read 0x0E1) ∧
    (s.keyPending = none → s.service.mem.read 0x0E0 = s.mem.read 0x0E0 ∧ s.service.mem.read 0x0E1 = 0)

/-- The six clock cells hold the step's clock reading, whatever it is, and the timer counts down to 0 and stays
there (60_exceptions.md R225, R227). The layout is the spec's decision D24; the reading is an input of the step (log
7). -/
def Obligations.ClockAndTimerAreServiced : Prop :=
  ∀ s : State, s.mem.wf = true →
    s.service.mem.read 0x0E8 = s.input.clk.sec ∧ s.service.mem.read 0x0E9 = s.input.clk.min ∧
    s.service.mem.read 0x0EA = s.input.clk.hour ∧ s.service.mem.read 0x0EB = s.input.clk.day ∧
    s.service.mem.read 0x0EC = s.input.clk.month ∧ s.service.mem.read 0x0ED = s.input.clk.year ∧
    (s.service.mem.read 0x0EE).toNat = (s.mem.read 0x0EE).toNat - 1

/-- The service routine touches nothing but the device and clock cells, the pending key and the output stream; `psr`
is not touched (60_exceptions.md R210, R220; 20_memory.md R55). R210 is the spec's own inference. -/
def Obligations.ServiceTouchesOnlyItsCells : Prop :=
  ∀ s : State, s.service.regs = s.regs ∧ s.KeepsControl s.service ∧ s.service.rom = s.rom ∧ s.service.cfg = s.cfg ∧
    s.service.inputs = s.inputs ∧ s.service.tick = s.tick ∧
    (s.mem.wf = true → ∀ a, a ∉ deviceCells → s.service.mem.read a = s.mem.read a)

/-- Every step that does not fault runs the service routine after its microinstruction (43_sequencer.md R188). That
a faulting step is not serviced is the spec's decision D21. -/
def Obligations.EveryStepIsServiced : Prop :=
  ∀ s t : State, Sys2Proof.Machine.step s = .next t → (∀ r, t.run ≠ .faulted r) →
    ∃ i u, s.fetchMicro = .ok i ∧ exec i s = .next u ∧ t.regs = u.regs ∧ t.mem = u.service.mem ∧
      t.out = u.service.out ∧ t.keyPending = u.service.keyPending

/-- A store of a nonzero Word to the output data cell while the status is 1 is emitted by the same step
(60_exceptions.md R222). The rule is the spec's own inference from R220 and R221. -/
def Obligations.OutputIsEmittedByTheStoringStep : Prop :=
  ∀ (s : State) (src : RegName) (ss : Spec), s.mem.wf = true → s.run = .running →
    s.fetchMicro = .ok (.ramWr src ss) → s.reg .mar = 0x0E2 → s.mem.read 0x0E3 = 1 → s.read src ss ≠ 0 →
    ∃ t, Sys2Proof.Machine.step s = .next t ∧ t.out = s.out ++ [s.read src ss] ∧ t.mem.read 0x0E2 = 0 ∧
      t.mem.read 0x0E3 = 0

/-! ## The host -/

/-- A host write to memory is normalised, stored below 4096 and dropped from there on (60_exceptions.md R242,
20_memory.md R53). -/
def Obligations.HostMemoryWritesAreNormalised : Prop :=
  ∀ (s : State) (addr : Nat) (v : Value), s.mem.wf = true → ∃ t, hostAct (.writeMem addr v) s = .next t ∧
    (addr < 4096 → (∀ n : Nat, v = .num n → (t.mem.read addr).toNat = n % 65536) ∧
      ((v = .nonNumeric ∨ ∃ n : Int, n < 0 ∧ v = .num n) → t.mem.read addr = 0)) ∧
    (4096 ≤ addr → s.KeepsMem t) ∧ (∀ a, a ≠ addr → t.mem.read a = s.mem.read a) ∧
    s.KeepsRegsBut t [] ∧ s.KeepsControl t ∧ s.KeepsHost t

/-- Restart: from a halt only, and it changes the run state and the cursor only (70_reset_and_hazards.md R252). The
rule is the spec's decision D19; that any other restart is refused is the model's choice (log 20). -/
def Obligations.RestartLeavesHaltOnly : Prop :=
  ∀ s : State,
    ((s.run = .halted ∨ ∃ op, s.run = .decodeError op) →
      hostAct .restart s = .next { s with run := .running, prog := .fetch, uidx := 0 }) ∧
    ((s.run = .running ∨ ∃ r, s.run = .faulted r) → hostAct .restart s = .refused .restartNotDefined)

/-- Power-up reset loads the table and the text and sets every piece of state, and is refused where the table is not
admitted (70_reset_and_hazards.md R250, 30_encoding.md R96). That the parameters, the supplied inputs and the step number
stay is the model's choice (log 19). -/
def Obligations.PowerUpSetsTheState : Prop :=
  ∀ (s : State) (table : List Record) (text : Token),
    (∀ rom, loadTable s.cfg.spelling table = .ok rom → ∃ t, hostAct (.reset table text) s = .next t ∧
      t.rom = rom ∧ t.rom.check = none ∧ (∀ r, r ≠ .psr → t.reg r = s.cfg.resetRegs.get r) ∧
      t.reg .psr = s.cfg.resetRegs.psr &&& 0x370F ∧ (s.cfg.resetRegs = Regs.zero → ∀ r, t.reg r = 0) ∧
      t.mem = loadRomText text [] ∧ t.prog = .fetch ∧ t.uidx = 0 ∧ t.run = .running ∧ t.keyPending = none ∧
      t.out = [] ∧ t.cfg = s.cfg ∧ t.inputs = s.inputs ∧ t.tick = s.tick) ∧
    ∀ c, loadTable s.cfg.spelling table = .error c → hostAct (.reset table text) s = .refused (.romNotAdmitted c)

/-- An admitted table holds, under each well-formed key, the decoded program of the one record with that key, and
nothing else; records with a malformed key are kept (30_encoding.md R90, R91, R92). Matching without case and
refusing equal keys are the spec's decision D30. R91 keeps a malformed record under its literal key; that the model
keeps it in a list beside the programs is log 21, and that a reserved key in other letter case is malformed is log
24. -/
def Obligations.LoadedTableHoldsTheRecords : Prop :=
  ∀ (sp : Spelling) (rs : List Record) (rom : Rom), loadTable sp rs = .ok rom →
    (∀ r ∈ rs, ∀ k, parseKey r.key = some k →
      ∃ P, decodeProgram sp r.program = .ok P ∧ rom.program k = some P) ∧
    (∀ k P, rom.program k = some P → ∃ r ∈ rs, parseKey r.key = some k ∧ decodeProgram sp r.program = .ok P) ∧
    ∀ r ∈ rs, parseKey r.key = none → r ∈ rom.literal

/-- What an admitted table satisfies: the two reserved programs exist and every program holds microinstructions
only, with specs that apply and the empty entry first or nowhere (30_encoding.md R96). The refusals of operands are
the spec's decisions D10 to D12, those of keys its decision D30, that of the empty entry its decision D9; that it is
refused above index 0 in every program, one with an empty first entry too, is log 17. -/
def Obligations.AdmittedTablesPassTheChecks : Prop :=
  ∀ (sp : Spelling) (rs : List Record) (rom : Rom), loadTable sp rs = .ok rom →
    (∃ P, rom.program .fetch = some P) ∧ (∃ P, rom.program .interrupt = some P) ∧
    ((rs.filterMap fun r => parseKey r.key).Nodup) ∧ ∀ k P, rom.program k = some P → Program.wf P = true

/-- A ROM text of one data line for each Word puts the Words at addresses 0, 1, 2, … and drops those from 4096 on
(20_memory.md R60). The cursor's start at 0 is the spec's decision D31. That a line ends at a line feed is log 16,
on which the texts here rest. Lines with `org` have no part in this statement. -/
def Obligations.RomTextLoadsItsWords : Prop :=
  ∀ (ws : List Word) (a : Nat),
    (loadRomText (romTextOf ws) []).read a = if a < 4096 then ws.getD a 0 else 0
end

