-- ==== Sys2Proof/Laws/State.lean ====
section
/-! SUPPORT. One lemma for each field of the state under each update, so that no proof unfolds a record update. -/

namespace Sys2Proof.Machine

@[simp] theorem State.write_regs (s : State) (r : RegName) (f : Spec) (v : Word) :
    (s.write r f v).regs = s.regs.write r f v := rfl

@[simp] theorem State.write_mem (s : State) (r : RegName) (f : Spec) (v : Word) :
    (s.write r f v).mem = s.mem := rfl

@[simp] theorem State.write_prog (s : State) (r : RegName) (f : Spec) (v : Word) :
    (s.write r f v).prog = s.prog := rfl

@[simp] theorem State.write_uidx (s : State) (r : RegName) (f : Spec) (v : Word) :
    (s.write r f v).uidx = s.uidx := rfl

@[simp] theorem State.write_run (s : State) (r : RegName) (f : Spec) (v : Word) :
    (s.write r f v).run = s.run := rfl

@[simp] theorem State.write_keyPending (s : State) (r : RegName) (f : Spec) (v : Word) :
    (s.write r f v).keyPending = s.keyPending := rfl

@[simp] theorem State.write_out (s : State) (r : RegName) (f : Spec) (v : Word) :
    (s.write r f v).out = s.out := rfl

@[simp] theorem State.write_rom (s : State) (r : RegName) (f : Spec) (v : Word) :
    (s.write r f v).rom = s.rom := rfl

@[simp] theorem State.write_cfg (s : State) (r : RegName) (f : Spec) (v : Word) :
    (s.write r f v).cfg = s.cfg := rfl

@[simp] theorem State.write_early (s : State) (r : RegName) (f : Spec) (v : Word) :
    (s.write r f v).early = s.early := rfl

@[simp] theorem State.write_inputs (s : State) (r : RegName) (f : Spec) (v : Word) :
    (s.write r f v).inputs = s.inputs := rfl

@[simp] theorem State.write_tick (s : State) (r : RegName) (f : Spec) (v : Word) :
    (s.write r f v).tick = s.tick := rfl

@[simp] theorem State.memWrite_regs (s : State) (a : Nat) (v : Word) :
    (s.memWrite a v).regs = s.regs := rfl

@[simp] theorem State.memWrite_mem (s : State) (a : Nat) (v : Word) :
    (s.memWrite a v).mem = s.mem.write a v := rfl

@[simp] theorem State.memWrite_prog (s : State) (a : Nat) (v : Word) :
    (s.memWrite a v).prog = s.prog := rfl

@[simp] theorem State.memWrite_uidx (s : State) (a : Nat) (v : Word) :
    (s.memWrite a v).uidx = s.uidx := rfl

@[simp] theorem State.memWrite_run (s : State) (a : Nat) (v : Word) :
    (s.memWrite a v).run = s.run := rfl

@[simp] theorem State.memWrite_keyPending (s : State) (a : Nat) (v : Word) :
    (s.memWrite a v).keyPending = s.keyPending := rfl

@[simp] theorem State.memWrite_out (s : State) (a : Nat) (v : Word) :
    (s.memWrite a v).out = s.out := rfl

@[simp] theorem State.memWrite_rom (s : State) (a : Nat) (v : Word) :
    (s.memWrite a v).rom = s.rom := rfl

@[simp] theorem State.memWrite_cfg (s : State) (a : Nat) (v : Word) :
    (s.memWrite a v).cfg = s.cfg := rfl

@[simp] theorem State.memWrite_early (s : State) (a : Nat) (v : Word) :
    (s.memWrite a v).early = s.early := rfl

@[simp] theorem State.memWrite_inputs (s : State) (a : Nat) (v : Word) :
    (s.memWrite a v).inputs = s.inputs := rfl

@[simp] theorem State.memWrite_tick (s : State) (a : Nat) (v : Word) :
    (s.memWrite a v).tick = s.tick := rfl

@[simp] theorem State.raise_regs (s : State) (r : FaultReason) :
    (s.raise r).regs = s.regs := rfl

@[simp] theorem State.raise_mem (s : State) (r : FaultReason) :
    (s.raise r).mem = s.mem := rfl

@[simp] theorem State.raise_prog (s : State) (r : FaultReason) :
    (s.raise r).prog = s.prog := rfl

@[simp] theorem State.raise_uidx (s : State) (r : FaultReason) :
    (s.raise r).uidx = s.uidx := rfl

@[simp] theorem State.raise_run (s : State) (r : FaultReason) :
    (s.raise r).run = .faulted r := rfl

@[simp] theorem State.raise_keyPending (s : State) (r : FaultReason) :
    (s.raise r).keyPending = s.keyPending := rfl

@[simp] theorem State.raise_out (s : State) (r : FaultReason) :
    (s.raise r).out = s.out := rfl

@[simp] theorem State.raise_rom (s : State) (r : FaultReason) :
    (s.raise r).rom = s.rom := rfl

@[simp] theorem State.raise_cfg (s : State) (r : FaultReason) :
    (s.raise r).cfg = s.cfg := rfl

@[simp] theorem State.raise_early (s : State) (r : FaultReason) :
    (s.raise r).early = s.early := rfl

@[simp] theorem State.raise_inputs (s : State) (r : FaultReason) :
    (s.raise r).inputs = s.inputs := rfl

@[simp] theorem State.raise_tick (s : State) (r : FaultReason) :
    (s.raise r).tick = s.tick := rfl

@[simp] theorem State.stopHalted_regs (s : State) :
    (s.stopHalted).regs = s.regs := rfl

@[simp] theorem State.stopHalted_mem (s : State) :
    (s.stopHalted).mem = s.mem := rfl

@[simp] theorem State.stopHalted_prog (s : State) :
    (s.stopHalted).prog = s.prog := rfl

@[simp] theorem State.stopHalted_uidx (s : State) :
    (s.stopHalted).uidx = 0 := rfl

@[simp] theorem State.stopHalted_run (s : State) :
    (s.stopHalted).run = .halted := rfl

@[simp] theorem State.stopHalted_keyPending (s : State) :
    (s.stopHalted).keyPending = s.keyPending := rfl

@[simp] theorem State.stopHalted_out (s : State) :
    (s.stopHalted).out = s.out := rfl

@[simp] theorem State.stopHalted_rom (s : State) :
    (s.stopHalted).rom = s.rom := rfl

@[simp] theorem State.stopHalted_cfg (s : State) :
    (s.stopHalted).cfg = s.cfg := rfl

@[simp] theorem State.stopHalted_early (s : State) :
    (s.stopHalted).early = s.early := rfl

@[simp] theorem State.stopHalted_inputs (s : State) :
    (s.stopHalted).inputs = s.inputs := rfl

@[simp] theorem State.stopHalted_tick (s : State) :
    (s.stopHalted).tick = s.tick := rfl

@[simp] theorem State.stopUndefined_regs (s : State) (op : Byte) :
    (s.stopUndefined op).regs = s.regs := rfl

@[simp] theorem State.stopUndefined_mem (s : State) (op : Byte) :
    (s.stopUndefined op).mem = s.mem := rfl

@[simp] theorem State.stopUndefined_prog (s : State) (op : Byte) :
    (s.stopUndefined op).prog = s.prog := rfl

@[simp] theorem State.stopUndefined_uidx (s : State) (op : Byte) :
    (s.stopUndefined op).uidx = 0 := rfl

@[simp] theorem State.stopUndefined_run (s : State) (op : Byte) :
    (s.stopUndefined op).run = .decodeError op := rfl

@[simp] theorem State.stopUndefined_keyPending (s : State) (op : Byte) :
    (s.stopUndefined op).keyPending = s.keyPending := rfl

@[simp] theorem State.stopUndefined_out (s : State) (op : Byte) :
    (s.stopUndefined op).out = s.out := rfl

@[simp] theorem State.stopUndefined_rom (s : State) (op : Byte) :
    (s.stopUndefined op).rom = s.rom := rfl

@[simp] theorem State.stopUndefined_cfg (s : State) (op : Byte) :
    (s.stopUndefined op).cfg = s.cfg := rfl

@[simp] theorem State.stopUndefined_early (s : State) (op : Byte) :
    (s.stopUndefined op).early = s.early := rfl

@[simp] theorem State.stopUndefined_inputs (s : State) (op : Byte) :
    (s.stopUndefined op).inputs = s.inputs := rfl

@[simp] theorem State.stopUndefined_tick (s : State) (op : Byte) :
    (s.stopUndefined op).tick = s.tick := rfl

@[simp] theorem State.select_regs (s : State) (k : ProgKey) :
    (s.select k).regs = s.regs := rfl

@[simp] theorem State.select_mem (s : State) (k : ProgKey) :
    (s.select k).mem = s.mem := rfl

@[simp] theorem State.select_prog (s : State) (k : ProgKey) :
    (s.select k).prog = k := rfl

@[simp] theorem State.select_uidx (s : State) (k : ProgKey) :
    (s.select k).uidx = 0 := rfl

@[simp] theorem State.select_run (s : State) (k : ProgKey) :
    (s.select k).run = s.run := rfl

@[simp] theorem State.select_keyPending (s : State) (k : ProgKey) :
    (s.select k).keyPending = s.keyPending := rfl

@[simp] theorem State.select_out (s : State) (k : ProgKey) :
    (s.select k).out = s.out := rfl

@[simp] theorem State.select_rom (s : State) (k : ProgKey) :
    (s.select k).rom = s.rom := rfl

@[simp] theorem State.select_cfg (s : State) (k : ProgKey) :
    (s.select k).cfg = s.cfg := rfl

@[simp] theorem State.select_early (s : State) (k : ProgKey) :
    (s.select k).early = s.early := rfl

@[simp] theorem State.select_inputs (s : State) (k : ProgKey) :
    (s.select k).inputs = s.inputs := rfl

@[simp] theorem State.select_tick (s : State) (k : ProgKey) :
    (s.select k).tick = s.tick := rfl

@[simp] theorem State.consumeInput_regs (s : State) :
    (s.consumeInput).regs = s.regs := rfl

@[simp] theorem State.consumeInput_mem (s : State) :
    (s.consumeInput).mem = s.mem := rfl

@[simp] theorem State.consumeInput_prog (s : State) :
    (s.consumeInput).prog = s.prog := rfl

@[simp] theorem State.consumeInput_uidx (s : State) :
    (s.consumeInput).uidx = s.uidx := rfl

@[simp] theorem State.consumeInput_run (s : State) :
    (s.consumeInput).run = s.run := rfl

@[simp] theorem State.consumeInput_keyPending (s : State) :
    (s.consumeInput).keyPending = s.keyPending := rfl

@[simp] theorem State.consumeInput_out (s : State) :
    (s.consumeInput).out = s.out := rfl

@[simp] theorem State.consumeInput_rom (s : State) :
    (s.consumeInput).rom = s.rom := rfl

@[simp] theorem State.consumeInput_cfg (s : State) :
    (s.consumeInput).cfg = s.cfg := rfl

@[simp] theorem State.consumeInput_early (s : State) :
    (s.consumeInput).early = s.early := rfl

@[simp] theorem State.consumeInput_inputs (s : State) :
    (s.consumeInput).inputs = s.inputs.tail := rfl

@[simp] theorem State.consumeInput_tick (s : State) :
    (s.consumeInput).tick = s.tick + 1 := rfl

@[simp] theorem State.emit_regs (s : State) (w : Word) :
    (s.emit w).regs = s.regs := rfl

@[simp] theorem State.emit_mem (s : State) (w : Word) :
    (s.emit w).mem = s.mem := rfl

@[simp] theorem State.emit_prog (s : State) (w : Word) :
    (s.emit w).prog = s.prog := rfl

@[simp] theorem State.emit_uidx (s : State) (w : Word) :
    (s.emit w).uidx = s.uidx := rfl

@[simp] theorem State.emit_run (s : State) (w : Word) :
    (s.emit w).run = s.run := rfl

@[simp] theorem State.emit_keyPending (s : State) (w : Word) :
    (s.emit w).keyPending = s.keyPending := rfl

@[simp] theorem State.emit_out (s : State) (w : Word) :
    (s.emit w).out = s.out ++ [w] := rfl

@[simp] theorem State.emit_rom (s : State) (w : Word) :
    (s.emit w).rom = s.rom := rfl

@[simp] theorem State.emit_cfg (s : State) (w : Word) :
    (s.emit w).cfg = s.cfg := rfl

@[simp] theorem State.emit_early (s : State) (w : Word) :
    (s.emit w).early = s.early := rfl

@[simp] theorem State.emit_inputs (s : State) (w : Word) :
    (s.emit w).inputs = s.inputs := rfl

@[simp] theorem State.emit_tick (s : State) (w : Word) :
    (s.emit w).tick = s.tick := rfl

@[simp] theorem State.enterInterrupt_eq (s : State) : s.enterInterrupt = s.select .interrupt := rfl

@[simp] theorem State.fallBackToFetch_eq (s : State) : s.fallBackToFetch = s.select .fetch := rfl

end Sys2Proof.Machine
end

