-- ==== Sys2Proof/Laws/Operands.lean ====
section
/-! SUPPORT. What a register read and a register write do (40_operand_addressing.md). -/

namespace Sys2Proof.Machine

@[simp] theorem Regs.get_set_self (g : Regs) (r : RegName) (v : Word) : (g.set r v).get r = v := by
  cases r <;> rfl

theorem Regs.get_set_of_ne (g : Regs) {r q : RegName} (v : Word) (h : q ≠ r) : (g.set r v).get q = g.get q := by
  cases r <;> cases q <;> first | rfl | exact absurd rfl h

/-- The file is known by its registers. -/
theorem Regs.ext_get {g h : Regs} (e : ∀ r, g.get r = h.get r) : g = h := by
  cases g; cases h
  have e1 := e .pc; have e2 := e .inc; have e3 := e .ir; have e4 := e .sp; have e5 := e .a; have e6 := e .b
  have e7 := e .mar; have e8 := e .mdr; have e9 := e .alux; have e10 := e .aluy; have e11 := e .alur
  have e12 := e .psr
  simp_all [Regs.get]

/-- A register after a write to it (40_operand_addressing.md R113), in the register file. -/
@[simp] theorem Regs.get_write_self (g : Regs) (r : RegName) (f : Spec) (v : Word) :
    (g.write r f v).get r = writtenValue r f (g.get r) v := Regs.get_set_self _ _ _

/-- A write leaves every other register of the file alone. -/
theorem Regs.get_write_of_ne (g : Regs) {r q : RegName} (f : Spec) (v : Word) (h : q ≠ r) :
    (g.write r f v).get q = g.get q := Regs.get_set_of_ne _ _ h

/-- A register after a write to it (40_operand_addressing.md R113). -/
@[simp] theorem State.write_reg_self (s : State) (r : RegName) (f : Spec) (v : Word) :
    (s.write r f v).reg r = writtenValue r f (s.reg r) v := by
  simp [State.reg]

/-- A write leaves every other register alone. -/
theorem State.write_reg_of_ne (s : State) {r q : RegName} (f : Spec) (v : Word) (h : q ≠ r) :
    (s.write r f v).reg q = s.reg q := by
  simp [State.reg, Regs.get_write_of_ne _ _ _ h]

@[simp] theorem State.memWrite_reg (s : State) (a : Nat) (v : Word) (r : RegName) :
    (s.memWrite a v).reg r = s.reg r := rfl

@[simp] theorem State.raise_reg (s : State) (q : FaultReason) (r : RegName) : (s.raise q).reg r = s.reg r := rfl

@[simp] theorem State.stopHalted_reg (s : State) (r : RegName) : s.stopHalted.reg r = s.reg r := rfl

@[simp] theorem State.stopUndefined_reg (s : State) (op : Byte) (r : RegName) :
    (s.stopUndefined op).reg r = s.reg r := rfl

@[simp] theorem State.select_reg (s : State) (k : ProgKey) (r : RegName) : (s.select k).reg r = s.reg r := rfl

@[simp] theorem State.consumeInput_reg (s : State) (r : RegName) : s.consumeInput.reg r = s.reg r := rfl

@[simp] theorem State.emit_reg (s : State) (w : Word) (r : RegName) : (s.emit w).reg r = s.reg r := rfl

/-- A field is read from the register alone. -/
theorem State.read_congr {s t : State} {r : RegName} (h : t.reg r = s.reg r) (f : Spec) : t.read r f = s.read r f := by
  simp [State.read, h]

/-- A flag is read from `psr` alone. -/
theorem State.flag_congr {s t : State} (h : t.reg .psr = s.reg .psr) (f : Spec) : t.flag f = s.flag f := by
  simp [State.flag, State.read_congr h]

/-- Writes to registers other than `inc` and `psr` store the value whole (40_operand_addressing.md R120). -/
theorem writtenValue_whole {r : RegName} (hi : r ≠ .inc) (hp : r ≠ .psr) (old v : Word) :
    writtenValue r .whole old v = v := by
  simp [writtenValue, hi, hp]

/-- Every write to `psr` is masked (40_operand_addressing.md R116). -/
theorem writtenValue_psr_masked (f : Spec) (old v : Word) : writtenValue .psr f old v &&& ~~~ psrMask = 0 := by
  simp only [writtenValue, reduceCtorEq, if_false, if_true]
  rw [BitVec.and_assoc, show psrMask &&& ~~~ psrMask = 0 by decide, show ∀ x : Word, x &&& 0 = 0 from fun x => BitVec.and_zero]

/-- A Word whose other bits are cleared is 1 exactly when the bit kept is set. -/
theorem shifted_bit (x : Word) (n : Nat) : ((x >>> n) &&& 1 == 1) = x.getLsbD n := by
  have one : ∀ y : Word, (y &&& 1 = 1) ↔ y.getLsbD 0 = true := by
    intro y
    constructor
    · intro h
      simpa using congrArg (·.getLsbD 0) h
    · intro h
      apply BitVec.eq_of_getLsbD_eq
      intro k hk
      interval_cases k <;> simp_all
  rw [Bool.eq_iff_iff, beq_iff_eq, one]
  simp

/-- The interrupt-pending flag is bit 13 of `psr` (10_state.md R29). -/
theorem State.flag_i (s : State) : s.flag .i = (s.reg .psr).getLsbD 13 := by
  simp only [State.flag, State.read, reduceCtorEq, if_false, extractField, fieldShift, fieldOnes, fieldWidth]
  exact shifted_bit _ _

/-- The interrupt-enable flag is bit 12 of `psr` (10_state.md R29). -/
theorem State.flag_e (s : State) : s.flag .e = (s.reg .psr).getLsbD 12 := by
  simp only [State.flag, State.read, reduceCtorEq, if_false, extractField, fieldShift, fieldOnes, fieldWidth]
  exact shifted_bit _ _

/-- The ones of a field's width. -/
theorem getLsbD_fieldOnes (f : Spec) (k : Nat) : (fieldOnes f).getLsbD k = decide (k < fieldWidth f) := by
  have h : fieldWidth f ≤ 16 := by cases f <;> decide
  rw [fieldOnes, BitVec.getLsbD_ofNat, Nat.testBit_two_pow_sub_one, ← Bool.decide_and, decide_eq_decide]
  omega

/-- The bits of a Word with one field replaced (40_operand_addressing.md R115). -/
theorem getLsbD_insertField (f : Spec) (old v : Word) {i : Nat} (hi : i < 16) :
    (insertField f old v).getLsbD i =
      if (fieldMask f).getLsbD i then v.getLsbD (i - fieldShift f) else old.getLsbD i := by
  simp only [insertField, fieldMask, BitVec.getLsbD_or, BitVec.getLsbD_and, BitVec.getLsbD_not,
    BitVec.getLsbD_shiftLeft, getLsbD_fieldOnes, hi, decide_true, Bool.true_and]
  by_cases h : i < fieldShift f <;> by_cases k : i - fieldShift f < fieldWidth f <;> simp [h, k]

/-- The mask of a field has the bits of the field, at its shift (40_operand_addressing.md R110). -/
theorem getLsbD_fieldMask (f : Spec) {k : Nat} (hk : k < fieldWidth f) :
    (fieldMask f).getLsbD (fieldShift f + k) = true ∧ fieldShift f + k < 16 := by
  revert k
  cases f <;> decide

end Sys2Proof.Machine
end

