-- ==== Sys2Proof/Laws/Alu.lean ====
section
/-! SUPPORT. What an ALU microinstruction leaves alone (42_alu.md R150): it writes `alur` and `psr`. -/

namespace Sys2Proof.Machine

@[simp] theorem State.storeAlu_mem (s : State) (o : AluOut) : (s.storeAlu o).mem = s.mem := by
  simp only [State.storeAlu]

@[simp] theorem State.storeAlu_prog (s : State) (o : AluOut) : (s.storeAlu o).prog = s.prog := by
  simp only [State.storeAlu]

@[simp] theorem State.storeAlu_uidx (s : State) (o : AluOut) : (s.storeAlu o).uidx = s.uidx := by
  simp only [State.storeAlu]

@[simp] theorem State.storeAlu_run (s : State) (o : AluOut) : (s.storeAlu o).run = s.run := by
  simp only [State.storeAlu]

@[simp] theorem State.storeAlu_keyPending (s : State) (o : AluOut) : (s.storeAlu o).keyPending = s.keyPending := by
  simp only [State.storeAlu]

@[simp] theorem State.storeAlu_out (s : State) (o : AluOut) : (s.storeAlu o).out = s.out := by
  simp only [State.storeAlu]

@[simp] theorem State.storeAlu_rom (s : State) (o : AluOut) : (s.storeAlu o).rom = s.rom := by
  simp only [State.storeAlu]

@[simp] theorem State.storeAlu_cfg (s : State) (o : AluOut) : (s.storeAlu o).cfg = s.cfg := by
  simp only [State.storeAlu]

@[simp] theorem State.storeAlu_early (s : State) (o : AluOut) : (s.storeAlu o).early = s.early := by
  simp only [State.storeAlu]

@[simp] theorem State.storeAlu_inputs (s : State) (o : AluOut) : (s.storeAlu o).inputs = s.inputs := by
  simp only [State.storeAlu]

@[simp] theorem State.storeAlu_tick (s : State) (o : AluOut) : (s.storeAlu o).tick = s.tick := by
  simp only [State.storeAlu]


/-- The stored result. -/
@[simp] theorem State.storeAlu_alur (s : State) (o : AluOut) : (s.storeAlu o).reg .alur = o.r := by
  simp [State.storeAlu, State.reg, Regs.storeAlu, Regs.get_write_of_ne, writtenValue]

/-- The other ten registers keep their values, `alux` and `aluy` among them. -/
theorem State.storeAlu_reg_of_ne (s : State) (o : AluOut) {r : RegName} (h1 : r ≠ .alur) (h2 : r ≠ .psr) :
    (s.storeAlu o).reg r = s.reg r := by
  simp [State.storeAlu, State.reg, Regs.storeAlu, Regs.get_write_of_ne, h1, h2]

/-- The reserved bits of `psr` are 0 after an ALU operation. -/
theorem State.storeAlu_psr_masked (s : State) (o : AluOut) : (s.storeAlu o).reg .psr &&& ~~~ psrMask = 0 := by
  simp only [State.storeAlu, State.reg, Regs.storeAlu, Regs.get_write_self, writtenValue_psr_masked]

theorem getLsbD_bitWord (b : Bool) (i : Nat) : (bitWord b).getLsbD i = (decide (i = 0) && b) := by
  cases b <;> simp [bitWord, BitVec.getLsbD_one]

theorem getElem_bitWord (b : Bool) (i : Nat) (h : i < 16) : (bitWord b)[i] = (decide (i = 0) && b) := by
  rw [← BitVec.getLsbD_eq_getElem, getLsbD_bitWord]

/-- The four flag writes one after the other, as one Word. -/
theorem writtenValue_flags (p : Word) (v n z c : Bool) :
    writtenValue .psr .c (writtenValue .psr .z (writtenValue .psr .n (writtenValue .psr .v p (bitWord v))
      (bitWord n)) (bitWord z)) (bitWord c) =
    (p &&& 0x3700) ||| (bitWord v <<< 3) ||| (bitWord n <<< 2) ||| (bitWord z <<< 1) ||| bitWord c := by
  simp only [writtenValue, insertField, fieldMask, fieldOnes, fieldShift, fieldWidth, psrMask, reduceCtorEq, if_false,
    if_true]
  apply BitVec.eq_of_getLsbD_eq
  intro i hi
  interval_cases i <;> simp [getElem_bitWord]

/-- `psr` after an ALU operation: the four flags replaced, the fields I, E and INT kept, the reserved bits 0. -/
theorem State.storeAlu_psr (s : State) (o : AluOut) :
    (s.storeAlu o).reg .psr = (s.reg .psr &&& 0x3700) ||| (bitWord o.v <<< 3) |||
      (bitWord (signBit o.r) <<< 2) ||| (bitWord (o.r == 0) <<< 1) ||| bitWord o.c := by
  simp only [State.storeAlu, State.reg, Regs.storeAlu, Regs.get_write_self,
    Regs.get_write_of_ne _ _ _ (show RegName.psr ≠ .alur by decide)]
  exact writtenValue_flags _ _ _ _ _

/-- The four flags after an ALU operation are those of its outcome (42_alu.md R150, R152). -/
theorem State.storeAlu_flags (s : State) (o : AluOut) :
    (s.storeAlu o).flag .c = o.c ∧ (s.storeAlu o).flag .v = o.v ∧ (s.storeAlu o).flag .n = signBit o.r ∧
      (s.storeAlu o).flag .z = (o.r == 0) := by
  refine ⟨?_, ?_, ?_, ?_⟩ <;>
  · simp only [State.flag, State.read, reduceCtorEq, if_false, State.storeAlu_psr, extractField, fieldShift, fieldOnes,
      fieldWidth]
    show ((_ >>> _) &&& (1 : Word) == 1) = _
    rw [shifted_bit]
    simp [getElem_bitWord]

/-- The fields I, E and INT are kept by an ALU operation (42_alu.md R150). -/
theorem State.storeAlu_read_psr (s : State) (o : AluOut) {f : Spec} (hf : f = .i ∨ f = .e ∨ f = .int) :
    (s.storeAlu o).read .psr f = s.read .psr f := by
  rcases hf with rfl | rfl | rfl <;>
  · simp only [State.read, reduceCtorEq, if_false, State.storeAlu_psr, extractField, fieldShift, fieldOnes, fieldWidth]
    apply BitVec.eq_of_getLsbD_eq
    intro k hk
    interval_cases k <;> simp [getElem_bitWord]

/-- The difference of two Words, wrapped (42_alu.md R155, R162). -/
theorem wrapDifference_toNat {d : Int} (h1 : -65536 ≤ d) (h2 : d < 65536) :
    ((wrapDifference d).toNat : Int) = if d < 0 then d + 65536 else d := by
  unfold wrapDifference
  rw [BitVec.toNat_ofInt]
  split <;> omega

end Sys2Proof.Machine
end

