-- ==== Sys2Proof/Laws/Memory.lean ====
section
/-! SUPPORT. What the memory operations do, and that each keeps the canonical form. -/

namespace Sys2Proof.Machine

theorem Memory.wfFrom_mono {lo lo' : Nat} (h : lo' ≤ lo) {m : Memory} (hm : Memory.wfFrom lo m = true) :
    Memory.wfFrom lo' m = true := by
  cases m with
  | nil => rfl
  | cons e m =>
    simp only [Memory.wfFrom, Bool.and_eq_true, decide_eq_true_eq] at hm ⊢
    exact ⟨⟨⟨h.trans hm.1.1.1, hm.1.1.2⟩, hm.1.2⟩, hm.2⟩

theorem Memory.wfFrom_cons {lo a : Nat} {v : Word} {m : Memory} :
    Memory.wfFrom lo ((a, v) :: m) = true ↔
      lo ≤ a ∧ a < memWords ∧ v ≠ Memory.unlisted ∧ Memory.wfFrom (a + 1) m = true := by
  simp [Memory.wfFrom, and_assoc]

/-- Below the first entry, a canonical list reads as unlisted. -/
theorem Memory.read_of_lt {lo x : Nat} (h : x < lo) {m : Memory} (hm : Memory.wfFrom lo m = true) :
    Memory.read m x = Memory.unlisted := by
  induction m generalizing lo with
  | nil => rfl
  | cons e m ih =>
    obtain ⟨a, v⟩ := e
    rw [Memory.wfFrom_cons] at hm
    have ha : ¬ a = x := by omega
    simp only [Memory.read, ha, if_false]
    exact ih (by omega) hm.2.2.2

theorem Memory.wfFrom_consEntry {lo a : Nat} {v : Word} {m : Memory} (hlo : lo ≤ a) (ha : a < memWords)
    (hm : Memory.wfFrom (a + 1) m = true) : Memory.wfFrom lo (Memory.cons a v m) = true := by
  unfold Memory.cons
  split
  · exact Memory.wfFrom_mono (by omega) hm
  · exact Memory.wfFrom_cons.2 ⟨hlo, ha, ‹_›, hm⟩

theorem Memory.read_consEntry {a : Nat} {v : Word} {m : Memory} (hm : Memory.wfFrom (a + 1) m = true) (x : Nat) :
    Memory.read (Memory.cons a v m) x = if a = x then v else Memory.read m x := by
  unfold Memory.cons
  split
  next h =>
    split
    next hx => rw [Memory.read_of_lt (by omega) hm, h]
    next => rfl
  next => rfl

/-- A store keeps the canonical form. -/
theorem Memory.store_wfFrom {lo x : Nat} {w : Word} (hlo : lo ≤ x) (hx : x < memWords) {m : Memory}
    (hm : Memory.wfFrom lo m = true) : Memory.wfFrom lo (Memory.store m x w) = true := by
  induction m generalizing lo with
  | nil => exact Memory.wfFrom_consEntry hlo hx rfl
  | cons e m ih =>
    obtain ⟨a, v⟩ := e
    have h := Memory.wfFrom_cons.1 hm
    simp only [Memory.store]
    split
    next hxa => exact Memory.wfFrom_consEntry hlo hx (Memory.wfFrom_cons.2 ⟨by omega, h.2.1, h.2.2.1, h.2.2.2⟩)
    next =>
      split
      next hxa => exact Memory.wfFrom_consEntry hlo hx (by rw [hxa]; exact h.2.2.2)
      next => exact Memory.wfFrom_cons.2 ⟨h.1, h.2.1, h.2.2.1, ih (by omega) h.2.2.2⟩

/-- A read after a store in a canonical list. -/
theorem Memory.read_storeFrom {lo x : Nat} {w : Word} {m : Memory} (hm : Memory.wfFrom lo m = true) (y : Nat) :
    Memory.read (Memory.store m x w) y = if x = y then w else Memory.read m y := by
  induction m generalizing lo with
  | nil => exact Memory.read_consEntry (m := []) rfl y
  | cons e m ih =>
    obtain ⟨a, v⟩ := e
    have h := Memory.wfFrom_cons.1 hm
    simp only [Memory.store]
    split
    next hxa => exact Memory.read_consEntry (Memory.wfFrom_cons.2 ⟨by omega, h.2.1, h.2.2.1, h.2.2.2⟩) y
    next =>
      split
      next hxa =>
        subst hxa
        rw [Memory.read_consEntry h.2.2.2]
        by_cases hy : x = y <;> simp [Memory.read, hy]
      next hxa =>
        simp only [Memory.read, ih h.2.2.2]
        by_cases hy : a = y
        · have : ¬ x = y := by omega
          simp [hy, this]
        · simp [hy]

/-- Every write keeps the canonical form (20_memory.md R53). -/
theorem Memory.write_wf {m : Memory} (hm : m.wf = true) (a : Nat) (v : Word) : (m.write a v).wf = true := by
  unfold Memory.write
  split
  · exact Memory.store_wfFrom (Nat.zero_le a) ‹_› hm
  · exact hm

/-- What is read after a write: the value at its address, which must exist, and the old Word elsewhere. -/
theorem Memory.read_write {m : Memory} (hm : m.wf = true) (a : Nat) (v : Word) (x : Nat) :
    (m.write a v).read x = if a = x ∧ a < memWords then v else m.read x := by
  unfold Memory.write
  split
  next h => rw [Memory.read_storeFrom hm]; simp [h]
  next h => simp [h]

/-- A write at an address where no memory is changes nothing (20_memory.md R53). -/
theorem Memory.write_of_le {a : Nat} (h : memWords ≤ a) (m : Memory) (v : Word) : m.write a v = m := by
  simp [Memory.write, Nat.not_lt.2 h]

/-- The lines of a ROM text keep the canonical form. -/
theorem loadLines_wf (ls : List Token) : ∀ (cursor : Nat) {m : Memory}, m.wf = true → (loadLines cursor m ls).wf = true := by
  induction ls with
  | nil => exact fun _ _ h => h
  | cons l ls ih =>
    intro cursor m h
    simp only [loadLines]
    split
    · exact ih _ h
    · split
      · exact ih _ (Memory.write_wf h _ _)
      · exact ih _ h

/-- The ROM text loader keeps the canonical form (20_memory.md R60). -/
theorem loadRomText_wf (text : Token) {m : Memory} (h : m.wf = true) : (loadRomText text m).wf = true :=
  loadLines_wf _ 0 h

/-- The memory after reset is in canonical form. -/
theorem reset_mem_wf : State.reset.mem.wf = true := rfl

end Sys2Proof.Machine
end

