-- ==== Sys2Proof/Laws/Devices.lean ====
section
/-! SUPPORT. What the service routine leaves alone and that it keeps the memory's form (60_exceptions.md R220). -/

namespace Sys2Proof.Machine

/-- The addresses the service routine may write (20_memory.md R55). -/
def isDeviceCell (a : Nat) : Prop := (inputData ≤ a ∧ a ≤ outputStatus) ∨ (clockBase ≤ a ∧ a ≤ timerCell)

/-- What a part of the service routine keeps: everything but the memory's device cells, the pending key and the output
stream. -/
structure State.SameButDevices (s t : State) : Prop where
  regs : t.regs = s.regs
  prog : t.prog = s.prog
  uidx : t.uidx = s.uidx
  run : t.run = s.run
  rom : t.rom = s.rom
  cfg : t.cfg = s.cfg
  early : t.early = s.early
  inputs : t.inputs = s.inputs
  tick : t.tick = s.tick
  wf : s.mem.wf = true → t.mem.wf = true
  read : s.mem.wf = true → ∀ a, ¬ isDeviceCell a → t.mem.read a = s.mem.read a

theorem State.SameButDevices.refl (s : State) : s.SameButDevices s :=
  ⟨rfl, rfl, rfl, rfl, rfl, rfl, rfl, rfl, rfl, id, fun _ _ _ => rfl⟩

theorem State.SameButDevices.trans {s t u : State} (h : s.SameButDevices t) (k : t.SameButDevices u) :
    s.SameButDevices u :=
  ⟨k.regs.trans h.regs, k.prog.trans h.prog, k.uidx.trans h.uidx, k.run.trans h.run, k.rom.trans h.rom,
    k.cfg.trans h.cfg, k.early.trans h.early, k.inputs.trans h.inputs, k.tick.trans h.tick, fun w => k.wf (h.wf w),
    fun w a ha => (k.read (h.wf w) a ha).trans (h.read w a ha)⟩

theorem State.sameButDevices_memWrite (s : State) {a : Nat} (ha : isDeviceCell a) (v : Word) :
    s.SameButDevices (s.memWrite a v) where
  regs := rfl
  prog := rfl
  uidx := rfl
  run := rfl
  rom := rfl
  cfg := rfl
  early := rfl
  inputs := rfl
  tick := rfl
  wf h := Memory.write_wf h a v
  read h x hx := by
    simp only [State.memWrite_mem, Memory.read_write h]
    rw [if_neg]
    rintro ⟨rfl, -⟩
    exact hx ha

theorem State.sameButDevices_outputHandshake (s : State) : s.SameButDevices s.outputHandshake := by
  have hs : isDeviceCell outputStatus := by simp [isDeviceCell, inputData, outputStatus]
  have hd : isDeviceCell outputData := by simp [isDeviceCell, inputData, outputData, outputStatus]
  unfold State.outputHandshake
  split
  · exact s.sameButDevices_memWrite hs _
  · split
    · exact ((⟨rfl, rfl, rfl, rfl, rfl, rfl, rfl, rfl, rfl, id, fun _ _ _ => rfl⟩ :
        s.SameButDevices (s.emit _)).trans (State.sameButDevices_memWrite _ hd _)).trans
          (State.sameButDevices_memWrite _ hs _)
    · exact .refl s

theorem State.sameButDevices_inputHandshake (s : State) : s.SameButDevices s.inputHandshake := by
  have hd : isDeviceCell inputData := by simp [isDeviceCell, inputData, outputStatus]
  have hs : isDeviceCell inputStatus := by simp [isDeviceCell, inputData, inputStatus, outputStatus]
  unfold State.inputHandshake
  split
  · exact (s.sameButDevices_memWrite hd _).trans ⟨rfl, rfl, rfl, rfl, rfl, rfl, rfl, rfl, rfl, id, fun _ _ _ => rfl⟩
  · split
    · exact s.sameButDevices_memWrite hs _
    · exact .refl s

theorem State.sameButDevices_writeClock (s : State) (c : Clock) : s.SameButDevices (s.writeClock c) := by
  have h : ∀ n, n ≤ 5 → isDeviceCell (clockBase + n) := by
    intro n hn
    simp only [isDeviceCell, inputData, outputStatus, clockBase, timerCell]
    omega
  exact ((((((s.sameButDevices_memWrite (h 0 (by omega)) _).trans (State.sameButDevices_memWrite _ (h 1 (by omega)) _)).trans
    (State.sameButDevices_memWrite _ (h 2 (by omega)) _)).trans (State.sameButDevices_memWrite _ (h 3 (by omega)) _)).trans
    (State.sameButDevices_memWrite _ (h 4 (by omega)) _)).trans (State.sameButDevices_memWrite _ (h 5 (by omega)) _))

theorem State.sameButDevices_countDown (s : State) : s.SameButDevices s.countDown := by
  have h : isDeviceCell timerCell := by simp [isDeviceCell, clockBase, timerCell]
  unfold State.countDown
  split
  · exact s.sameButDevices_memWrite h _
  · exact .refl s

/-- The parts of the service routine keep everything but the device cells, the pending key and the output stream. -/
theorem State.sameButDevices_serviceParts (s : State) : s.SameButDevices s.serviceParts :=
  ((s.sameButDevices_outputHandshake.trans (State.sameButDevices_inputHandshake _)).trans
    (State.sameButDevices_writeClock _ _)).trans (State.sameButDevices_countDown _)

/-- The service routine is its parts: they change nothing that it does not take from them. -/
theorem State.service_eq_parts (s : State) : s.service = s.serviceParts := by
  have h := s.sameButDevices_serviceParts
  unfold State.service
  rw [← h.regs, ← h.prog, ← h.uidx, ← h.run, ← h.rom, ← h.cfg, ← h.early, ← h.inputs, ← h.tick]

/-- The service routine keeps everything but the device cells, the pending key and the output stream. -/
theorem State.sameButDevices_service (s : State) : s.SameButDevices s.service :=
  s.service_eq_parts ▸ s.sameButDevices_serviceParts

@[simp] theorem State.service_regs (s : State) : s.service.regs = s.regs := rfl
@[simp] theorem State.service_prog (s : State) : s.service.prog = s.prog := rfl
@[simp] theorem State.service_uidx (s : State) : s.service.uidx = s.uidx := rfl
@[simp] theorem State.service_run (s : State) : s.service.run = s.run := rfl
@[simp] theorem State.service_rom (s : State) : s.service.rom = s.rom := rfl
@[simp] theorem State.service_cfg (s : State) : s.service.cfg = s.cfg := rfl
@[simp] theorem State.service_early (s : State) : s.service.early = s.early := rfl
@[simp] theorem State.service_inputs (s : State) : s.service.inputs = s.inputs := rfl
@[simp] theorem State.service_tick (s : State) : s.service.tick = s.tick := rfl

@[simp] theorem State.service_reg (s : State) (r : RegName) : s.service.reg r = s.reg r := by
  simp [State.reg]

theorem State.service_mem_wf {s : State} (h : s.mem.wf = true) : s.service.mem.wf = true :=
  s.sameButDevices_service.wf h

/-- What is read after a Word is stored at an address that exists. -/
theorem State.read_memWrite (a : Nat) {s : State} (h : s.mem.wf = true) (v : Word) (x : Nat)
    (ha : a < memWords := by decide) : (s.memWrite a v).mem.read x = if x = a then v else s.mem.read x := by
  simp [State.memWrite, Memory.read_write h, ha, eq_comm]

theorem State.memWrite_wf {s : State} (h : s.mem.wf = true) (a : Nat) (v : Word) : (s.memWrite a v).mem.wf = true :=
  Memory.write_wf h a v

/-- The memory after the output handshake (60_exceptions.md R221). -/
theorem State.read_outputHandshake {s : State} (h : s.mem.wf = true) (x : Nat) :
    s.outputHandshake.mem.read x =
      if s.mem.read outputStatus = 0 then (if x = outputStatus then 1 else s.mem.read x)
      else if s.mem.read outputData ≠ 0 ∧ s.mem.read outputStatus = 1 then
        (if x = outputStatus then 0 else if x = outputData then 0 else s.mem.read x)
      else s.mem.read x := by
  unfold State.outputHandshake
  split
  · rw [State.read_memWrite outputStatus h]
  · split
    · have h' : (s.emit (s.mem.read outputData)).mem.wf = true := h
      rw [State.read_memWrite outputStatus (State.memWrite_wf h' _ _), State.read_memWrite outputData h']
      rfl
    · rfl

/-- The memory after the input handshake (60_exceptions.md R223). -/
theorem State.read_inputHandshake {s : State} (h : s.mem.wf = true) (x : Nat) :
    s.inputHandshake.mem.read x =
      match s.keyPending with
      | some k => if x = inputData then normNat k else s.mem.read x
      | none => if x = inputStatus then 0 else s.mem.read x := by
  unfold State.inputHandshake
  cases hk : s.keyPending with
  | some k => exact State.read_memWrite inputData h _ _
  | none =>
    by_cases hs : s.mem.read inputStatus = 0
    · simp only [hs, ne_eq, not_true_eq_false, if_false]
      split
      next e => rw [e]; exact hs
      next => rfl
    · simp only [ne_eq, hs, not_false_eq_true, if_true]
      exact State.read_memWrite inputStatus h _ _

/-- The memory after the clock cells are written (60_exceptions.md R225). -/
theorem State.read_writeClock {s : State} (h : s.mem.wf = true) (c : Clock) (x : Nat) :
    (s.writeClock c).mem.read x =
      if x = clockBase + 5 then c.year else if x = clockBase + 4 then c.month else if x = clockBase + 3 then c.day
      else if x = clockBase + 2 then c.hour else if x = clockBase + 1 then c.min else if x = clockBase then c.sec
      else s.mem.read x := by
  have h1 := State.memWrite_wf h clockBase c.sec
  have h2 := State.memWrite_wf h1 (clockBase + 1) c.min
  have h3 := State.memWrite_wf h2 (clockBase + 2) c.hour
  have h4 := State.memWrite_wf h3 (clockBase + 3) c.day
  have h5 := State.memWrite_wf h4 (clockBase + 4) c.month
  unfold State.writeClock
  rw [State.read_memWrite (clockBase + 5) h5, State.read_memWrite (clockBase + 4) h4,
    State.read_memWrite (clockBase + 3) h3, State.read_memWrite (clockBase + 2) h2,
    State.read_memWrite (clockBase + 1) h1, State.read_memWrite clockBase h]

/-- The memory after the timer is counted down (60_exceptions.md R227). -/
theorem State.read_countDown {s : State} (h : s.mem.wf = true) (x : Nat) :
    s.countDown.mem.read x =
      if x = timerCell ∧ s.mem.read timerCell ≠ 0 then s.mem.read timerCell - 1 else s.mem.read x := by
  unfold State.countDown
  split
  next k => rw [State.read_memWrite timerCell h]; simp only [k, ne_eq, not_false_eq_true, and_true]
  next k => rw [if_neg fun e => k e.2]

/-- The parts of the service routine that follow the input handshake leave the output stream and the pending key
alone; the input handshake leaves no key pending (60_exceptions.md R220, R223). -/
theorem State.service_host (s : State) : s.service.out = s.outputHandshake.out ∧ s.service.keyPending = none := by
  have a : ∀ t : State, t.countDown.out = t.out ∧ t.countDown.keyPending = t.keyPending := by
    intro t; unfold State.countDown; split <;> exact ⟨rfl, rfl⟩
  have b : ∀ t : State, t.inputHandshake.out = t.out ∧ t.inputHandshake.keyPending = none := by
    intro t
    unfold State.inputHandshake
    split
    · exact ⟨rfl, rfl⟩
    · split <;> exact ⟨rfl, ‹_›⟩
  rw [State.service_eq_parts]
  unfold State.serviceParts
  rw [(a _).1, (a _).2]
  exact b _

theorem State.outputHandshake_keyPending (s : State) : s.outputHandshake.keyPending = s.keyPending := by
  unfold State.outputHandshake
  split
  · rfl
  · split <;> rfl

/-- The memory after the service routine, below the clock cells: what the two handshakes leave. -/
theorem State.read_service_io {s : State} (h : s.mem.wf = true) {x : Nat} (hx : x < clockBase) :
    s.service.mem.read x = s.outputHandshake.inputHandshake.mem.read x := by
  have h1 := s.sameButDevices_outputHandshake.wf h
  have h2 := s.outputHandshake.sameButDevices_inputHandshake.wf h1
  have h3 := (s.outputHandshake.inputHandshake.sameButDevices_writeClock s.input.clk).wf h2
  rw [State.service_eq_parts]
  unfold State.serviceParts
  rw [State.read_countDown h3, if_neg fun e => by simp only [timerCell, clockBase] at e hx; omega, State.read_writeClock h2]
  rw [if_neg (by omega), if_neg (by omega), if_neg (by omega), if_neg (by omega), if_neg (by omega), if_neg (by omega)]

/-- The service routine reads the memory, the pending key, the output stream and the step's input only. -/
theorem State.service_congr {s t : State} (h1 : t.mem = s.mem) (h2 : t.keyPending = s.keyPending) (h3 : t.out = s.out)
    (h4 : t.inputs = s.inputs) (h5 : t.tick = s.tick) :
    t.service.mem = s.service.mem ∧ t.service.out = s.service.out ∧ t.service.keyPending = s.service.keyPending := by
  have ho : t.outputHandshake.mem = s.outputHandshake.mem ∧ t.outputHandshake.out = s.outputHandshake.out := by
    unfold State.outputHandshake
    rw [h1]
    split
    · exact ⟨by simp only [State.memWrite, h1], h3⟩
    · split
      · exact ⟨by simp only [State.memWrite, State.emit, h1], by simp only [State.memWrite, State.emit, h3]⟩
      · exact ⟨h1, h3⟩
  have hi : ∀ {p q : State}, q.mem = p.mem → q.keyPending = p.keyPending →
      q.inputHandshake.mem = p.inputHandshake.mem := by
    intro p q e1 e2
    unfold State.inputHandshake
    rw [e1, e2]
    split
    · simp only [State.memWrite, e1]
    · split
      · simp only [State.memWrite, e1]
      · exact e1
  have hc : ∀ {p q : State}, q.mem = p.mem → q.countDown.mem = p.countDown.mem := by
    intro p q e
    unfold State.countDown
    rw [e]
    split
    · simp only [State.memWrite, e]
    · exact e
  refine ⟨?_, by rw [(State.service_host t).1, (State.service_host s).1, ho.2], by
    rw [(State.service_host t).2, (State.service_host s).2]⟩
  rw [State.service_eq_parts]
  unfold State.serviceParts
  have hin : t.input = s.input := by simp only [State.input, h4, h5]
  apply hc
  simp only [State.writeClock, State.memWrite, hin]
  rw [hi ho.1 (by rw [State.outputHandshake_keyPending, State.outputHandshake_keyPending, h2])]

end Sys2Proof.Machine
end

