-- ==== Sys2Proof/Laws/Exec.lean ====
section
/-! SUPPORT. Inversion lemmas of the meanings: what an answered next state can be. -/

namespace Sys2Proof.Machine

/-- An answered guard: its condition holds and its state is the answer. -/
theorem whenApplies_next {ok : Bool} {s t : State} (h : whenApplies ok s = .next t) : ok = true ∧ t = s := by
  unfold whenApplies at h
  split at h
  · cases h; exact ⟨‹_›, rfl⟩
  · cases h

@[simp] theorem whenApplies_true (s : State) : whenApplies true s = .next s := rfl

/-- The register a microinstruction may write besides those of the ALU (10_state.md R22). -/
def Instr.dest : Instr → Option RegName
  | .lit _ d _ => some d
  | .litIb d _ => some d
  | .ramRd d _ => some d
  | .move _ _ d _ => some d
  | .nopEntry => none
  | .ramWr _ _ => none
  | .aluAdd => none
  | .aluAddc => none
  | .aluSub => none
  | .aluShl => none
  | .aluShr => none
  | .aluAnd => none
  | .aluOr => none
  | .aluNot => none
  | .aluInc => none
  | .aluDec => none
  | .aluSwap => none
  | .psrTest _ _ => none
  | .undefined _ _ => none
  | .halt _ => none
  | .exec _ _ => none
  | .fetch => none
  | .interrupt => none

/-- What a microinstruction can do: write one register, store one Word at `mar`, run the ALU, fault on a read outside
the memory, or set `early`. -/
theorem exec_micro_cases {i : Instr} {s t : State} (hm : i.isMicro = true) (h : exec i s = .next t) :
    t = s ∨ (∃ d f v, Instr.dest i = some d ∧ t = s.write d f v) ∨
    (∃ src ss, i = .ramWr src ss ∧ t = s.memWrite (s.reg .mar).toNat (s.read src ss)) ∨ (∃ o, t = s.storeAlu o) ∨
    (∃ d ds, i = .ramRd d ds ∧ memWords ≤ (s.reg .mar).toNat ∧ t = s.raise (.memReadOutOfRange (s.reg .mar))) ∨
    (∃ bit e, i = .psrTest bit e ∧ t = { s with early := s.read .psr bit.spec != bitWord e }) := by
  have next_inj : ∀ {u : State}, (Host.Outcome.next u : Result) = .next t → t = u := by
    intro u hu; cases hu; rfl
  cases i with
  | nopEntry => exact .inl (next_inj h)
  | lit value d ds => exact .inr (.inl ⟨d, ds, _, rfl, (whenApplies_next h).2⟩)
  | litIb d ds => exact .inr (.inl ⟨d, ds, _, rfl, (whenApplies_next h).2⟩)
  | ramRd d ds =>
    have ht := (whenApplies_next h).2
    by_cases ha : (s.reg .mar).toNat < memWords
    · simp only [State.memRead, if_pos ha] at ht
      exact .inr (.inl ⟨d, ds, _, rfl, ht⟩)
    · simp only [State.memRead, if_neg ha] at ht
      exact .inr (.inr (.inr (.inr (.inl ⟨d, ds, rfl, Nat.le_of_not_lt ha, ht⟩))))
  | ramWr src ss => exact .inr (.inr (.inl ⟨src, ss, rfl, (whenApplies_next h).2⟩))
  | aluAdd => exact .inr (.inr (.inr (.inl ⟨_, next_inj h⟩)))
  | aluAddc => exact .inr (.inr (.inr (.inl ⟨_, next_inj h⟩)))
  | aluSub => exact .inr (.inr (.inr (.inl ⟨_, next_inj h⟩)))
  | aluShl => exact .inr (.inr (.inr (.inl ⟨_, next_inj h⟩)))
  | aluShr => exact .inr (.inr (.inr (.inl ⟨_, next_inj h⟩)))
  | aluAnd => exact .inr (.inr (.inr (.inl ⟨_, next_inj h⟩)))
  | aluOr => exact .inr (.inr (.inr (.inl ⟨_, next_inj h⟩)))
  | aluNot => exact .inr (.inr (.inr (.inl ⟨_, next_inj h⟩)))
  | aluInc => exact .inr (.inr (.inr (.inl ⟨_, next_inj h⟩)))
  | aluDec => exact .inr (.inr (.inr (.inl ⟨_, next_inj h⟩)))
  | aluSwap => exact .inr (.inr (.inr (.inl ⟨_, next_inj h⟩)))
  | psrTest bit e => exact .inr (.inr (.inr (.inr (.inr ⟨bit, e, rfl, next_inj h⟩))))
  | move src ss d ds => exact .inr (.inl ⟨d, ds, _, rfl, (whenApplies_next h).2⟩)
  | undefined op d8 => cases hm
  | halt d8 => cases hm
  | exec op d8 => cases hm
  | fetch => cases hm
  | interrupt => cases hm

/-- A microinstruction whose specs apply answers a next state. -/
theorem exec_micro_next {i : Instr} (s : State) (hm : i.isMicro = true) (hs : i.specsApply = true) :
    ∃ t, exec i s = .next t := by
  have hw : ∀ {ok : Bool} {u : State}, ok = true → ∃ t, whenApplies ok u = .next t := by
    rintro _ u rfl; exact ⟨u, rfl⟩
  cases i with
  | lit value d ds => exact hw hs
  | litIb d ds => exact hw hs
  | ramRd d ds => exact hw hs
  | ramWr src ss => exact hw hs
  | move src ss d ds => exact hw hs
  | undefined op d8 => cases hm
  | halt d8 => cases hm
  | exec op d8 => cases hm
  | fetch => cases hm
  | interrupt => cases hm
  | nopEntry => exact ⟨_, rfl⟩
  | aluAdd => exact ⟨_, rfl⟩
  | aluAddc => exact ⟨_, rfl⟩
  | aluSub => exact ⟨_, rfl⟩
  | aluShl => exact ⟨_, rfl⟩
  | aluShr => exact ⟨_, rfl⟩
  | aluAnd => exact ⟨_, rfl⟩
  | aluOr => exact ⟨_, rfl⟩
  | aluNot => exact ⟨_, rfl⟩
  | aluInc => exact ⟨_, rfl⟩
  | aluDec => exact ⟨_, rfl⟩
  | aluSwap => exact ⟨_, rfl⟩
  | psrTest bit e => exact ⟨_, rfl⟩

/-- What a microinstruction leaves alone: the cursor, the host's side, the ROM and the parameters; the run state changes
by the fault only; the memory keeps its form. -/
structure State.SameButMicro (s t : State) : Prop where
  prog : t.prog = s.prog
  uidx : t.uidx = s.uidx
  keyPending : t.keyPending = s.keyPending
  out : t.out = s.out
  rom : t.rom = s.rom
  cfg : t.cfg = s.cfg
  inputs : t.inputs = s.inputs
  tick : t.tick = s.tick
  run : t.run = s.run ∨ (memWords ≤ (s.reg .mar).toNat ∧ t.run = .faulted (.memReadOutOfRange (s.reg .mar)))
  wf : s.mem.wf = true → t.mem.wf = true
  psr : s.reg .psr &&& ~~~ psrMask = 0 → t.reg .psr &&& ~~~ psrMask = 0

theorem State.write_psr_masked {s : State} (h : s.reg .psr &&& ~~~ psrMask = 0) (r : RegName) (f : Spec) (v : Word) :
    (s.write r f v).reg .psr &&& ~~~ psrMask = 0 := by
  by_cases hr : r = .psr
  · subst hr
    rw [State.write_reg_self]
    exact writtenValue_psr_masked _ _ _
  · rwa [State.write_reg_of_ne _ _ _ (Ne.symm hr)]

theorem exec_micro_frame {i : Instr} {s t : State} (hm : i.isMicro = true) (h : exec i s = .next t) :
    s.SameButMicro t := by
  rcases exec_micro_cases hm h with rfl | ⟨d, f, v, -, rfl⟩ | ⟨src, ss, -, rfl⟩ | ⟨o, rfl⟩ | ⟨d, ds, -, ha, rfl⟩ |
    ⟨bit, e, -, rfl⟩
  · exact ⟨rfl, rfl, rfl, rfl, rfl, rfl, rfl, rfl, .inl rfl, id, id⟩
  · exact ⟨rfl, rfl, rfl, rfl, rfl, rfl, rfl, rfl, .inl rfl, id, fun h => State.write_psr_masked h d f v⟩
  · exact ⟨rfl, rfl, rfl, rfl, rfl, rfl, rfl, rfl, .inl rfl, fun h => Memory.write_wf h _ _, id⟩
  · exact ⟨s.storeAlu_prog o, s.storeAlu_uidx o, s.storeAlu_keyPending o, s.storeAlu_out o, s.storeAlu_rom o,
      s.storeAlu_cfg o, s.storeAlu_inputs o, s.storeAlu_tick o, .inl (s.storeAlu_run o),
      fun h => (s.storeAlu_mem o).symm ▸ h, fun _ => s.storeAlu_psr_masked o⟩
  · exact ⟨rfl, rfl, rfl, rfl, rfl, rfl, rfl, rfl, .inr ⟨ha, rfl⟩, id, id⟩
  · exact ⟨rfl, rfl, rfl, rfl, rfl, rfl, rfl, rfl, .inl rfl, id, id⟩

end Sys2Proof.Machine
end

