-- ==== Sys2Proof/Laws/PerInstr.lean ====
section
/-! SUPPORT. Statements made for each instruction: microinstructions are written as tuples of the opcode table, the
decode classes as macro words, the reserved keys as keys (30_encoding.md R81, R85, R90). -/

namespace Sys2Proof.Laws.EncodingForm

/-- An instruction is written as a tuple exactly when it is a microinstruction. -/
def Statement (i : Instr) : Prop :=
  ∀ (sp : Spelling) (haltOp : Byte), i.isMicro = true ↔ ∃ t, encode sp haltOp i = .tuple t

theorem nopEntry : Statement .nopEntry :=
  fun _ _ => ⟨fun _ => ⟨_, rfl⟩, fun _ => rfl⟩

theorem lit (value : Nat) (d : RegName) (ds : Spec) : Statement (.lit value d ds) :=
  fun _ _ => ⟨fun _ => ⟨_, rfl⟩, fun _ => rfl⟩

theorem litIb (d : RegName) (ds : Spec) : Statement (.litIb d ds) :=
  fun _ _ => ⟨fun _ => ⟨_, rfl⟩, fun _ => rfl⟩

theorem ramRd (d : RegName) (ds : Spec) : Statement (.ramRd d ds) :=
  fun _ _ => ⟨fun _ => ⟨_, rfl⟩, fun _ => rfl⟩

theorem ramWr (s : RegName) (ss : Spec) : Statement (.ramWr s ss) :=
  fun _ _ => ⟨fun _ => ⟨_, rfl⟩, fun _ => rfl⟩

theorem aluAdd : Statement .aluAdd :=
  fun _ _ => ⟨fun _ => ⟨_, rfl⟩, fun _ => rfl⟩

theorem aluAddc : Statement .aluAddc :=
  fun _ _ => ⟨fun _ => ⟨_, rfl⟩, fun _ => rfl⟩

theorem aluSub : Statement .aluSub :=
  fun _ _ => ⟨fun _ => ⟨_, rfl⟩, fun _ => rfl⟩

theorem aluShl : Statement .aluShl :=
  fun _ _ => ⟨fun _ => ⟨_, rfl⟩, fun _ => rfl⟩

theorem aluShr : Statement .aluShr :=
  fun _ _ => ⟨fun _ => ⟨_, rfl⟩, fun _ => rfl⟩

theorem aluAnd : Statement .aluAnd :=
  fun _ _ => ⟨fun _ => ⟨_, rfl⟩, fun _ => rfl⟩

theorem aluOr : Statement .aluOr :=
  fun _ _ => ⟨fun _ => ⟨_, rfl⟩, fun _ => rfl⟩

theorem aluNot : Statement .aluNot :=
  fun _ _ => ⟨fun _ => ⟨_, rfl⟩, fun _ => rfl⟩

theorem aluInc : Statement .aluInc :=
  fun _ _ => ⟨fun _ => ⟨_, rfl⟩, fun _ => rfl⟩

theorem aluDec : Statement .aluDec :=
  fun _ _ => ⟨fun _ => ⟨_, rfl⟩, fun _ => rfl⟩

theorem aluSwap : Statement .aluSwap :=
  fun _ _ => ⟨fun _ => ⟨_, rfl⟩, fun _ => rfl⟩

theorem psrTest (bit : PsrBit) (expect : Bool) : Statement (.psrTest bit expect) :=
  fun _ _ => ⟨fun _ => ⟨_, rfl⟩, fun _ => rfl⟩

theorem move (s : RegName) (ss : Spec) (d : RegName) (ds : Spec) : Statement (.move s ss d ds) :=
  fun _ _ => ⟨fun _ => ⟨_, rfl⟩, fun _ => rfl⟩

theorem undefined (op d8 : Byte) : Statement (.undefined op d8) :=
  fun _ _ => ⟨nofun, nofun⟩

theorem halt (d8 : Byte) : Statement (.halt d8) :=
  fun _ _ => ⟨nofun, nofun⟩

theorem exec (op d8 : Byte) : Statement (.exec op d8) :=
  fun _ _ => ⟨nofun, nofun⟩

theorem fetch : Statement .fetch :=
  fun _ _ => ⟨nofun, nofun⟩

theorem interrupt : Statement .interrupt :=
  fun _ _ => ⟨nofun, nofun⟩

end Sys2Proof.Laws.EncodingForm
end

