-- ==== Sys2Proof/Laws/Rom.lean ====
section
/-! SUPPORT. What an admitted ROM holds (30_encoding.md R96), and the decode classes (30_encoding.md R84). -/

namespace Sys2Proof.Machine

/-- What a ROM that passes every check of 30_encoding.md R96 satisfies. -/
structure Rom.Admitted (r : Rom) : Prop where
  fetch : ∃ P, r.program .fetch = some P
  interrupt : ∃ P, r.program .interrupt = some P
  unique : (r.entries.map Prod.fst).Nodup
  micro : ∀ e ∈ r.entries, ∀ i ∈ e.2, Instr.isMicro i = true
  applies : ∀ e ∈ r.entries, ∀ i ∈ e.2, Instr.specsApply i = true
  nop : ∀ e ∈ r.entries, Program.nopFirstOnly e.2 = true

theorem Rom.admitted_of_check {r : Rom} (h : r.check = none) : r.Admitted := by
  unfold Rom.check at h
  split at h
  · cases h
  next h1 =>
  split at h
  · cases h
  next h2 =>
  split at h
  · cases h
  next h3 =>
  split at h
  · cases h
  next h4 =>
  split at h
  · cases h
  next h5 =>
  split at h
  · cases h
  next h6 =>
  simp only [List.all_eq_true, Decidable.not_not, Option.isNone_iff_eq_none] at h1 h2 h3 h4 h5 h6
  exact ⟨Option.ne_none_iff_exists'.1 h1, Option.ne_none_iff_exists'.1 h2, h3, h4, h5, h6⟩

theorem lookup_mem {α β : Type} [BEq α] [LawfulBEq α] {l : List (α × β)} {k : α} {v : β} (h : l.lookup k = some v) :
    (k, v) ∈ l := by
  induction l with
  | nil => cases h
  | cons e l ih =>
    obtain ⟨a, b⟩ := e
    rw [List.lookup_cons] at h
    split at h
    next hk => rw [beq_iff_eq] at hk; cases h; subst hk; exact List.mem_cons_self
    next => exact List.mem_cons_of_mem _ (ih h)

/-- A program of the table is one of its entries. -/
theorem Rom.program_mem {r : Rom} {k : ProgKey} {P : Program} (h : r.program k = some P) : (k, P) ∈ r.entries :=
  lookup_mem h

/-- The microinstruction that phase 1 runs is `NOP_ENTRY` or an entry of the program. -/
theorem currentMicro_mem {P : Program} {u : Nat} {i : Instr} (h : currentMicro P u = some i) :
    i = .nopEntry ∨ i ∈ P := by
  unfold currentMicro at h
  split at h
  · cases h; exact .inl rfl
  · split at h
    · cases h; exact .inl rfl
    · cases h
  · exact .inr (List.mem_of_getElem? h)

/-- What a fetched microinstruction is. -/
theorem State.fetchMicro_ok {s : State} {i : Instr} (h : s.fetchMicro = .ok i) :
    s.rom.check = none ∧ ∃ P, s.program = some P ∧ currentMicro P s.uidx = some i := by
  unfold State.fetchMicro at h
  split at h
  · cases h
  next hc =>
  split at h
  · cases h
  next P hP =>
  split at h
  · cases h
  next j hj => cases h; exact ⟨hc, P, hP, hj⟩

/-- A fetched microinstruction is one, with specs that apply. -/
theorem State.fetchMicro_wf {s : State} {i : Instr} (h : s.fetchMicro = .ok i) :
    i.isMicro = true ∧ i.specsApply = true := by
  obtain ⟨hc, P, hP, hi⟩ := State.fetchMicro_ok h
  have ha := Rom.admitted_of_check hc
  rcases currentMicro_mem hi with rfl | hm
  · exact ⟨rfl, rfl⟩
  · exact ⟨ha.micro _ (Rom.program_mem hP) i hm, ha.applies _ (Rom.program_mem hP) i hm⟩

/-- The decode classes (30_encoding.md R84), in the order of the spec. -/
theorem State.decodeIr_cases (s : State) :
    (s.rom.defines (opByte (s.reg .ir)) = false ∧
      s.decodeIr = .undefined (opByte (s.reg .ir)) (lowByte (s.reg .ir))) ∨
    (s.rom.defines (opByte (s.reg .ir)) = true ∧ opByte (s.reg .ir) = s.cfg.haltOpcode ∧
      s.decodeIr = .halt (lowByte (s.reg .ir))) ∨
    (s.rom.defines (opByte (s.reg .ir)) = true ∧ opByte (s.reg .ir) ≠ s.cfg.haltOpcode ∧
      s.decodeIr = .exec (opByte (s.reg .ir)) (lowByte (s.reg .ir))) := by
  unfold State.decodeIr decodeMacro
  cases hd : s.rom.defines (opByte (s.reg .ir)) with
  | false => simp
  | true => by_cases hh : opByte (s.reg .ir) = s.cfg.haltOpcode <;> simp [hh]

end Sys2Proof.Machine
end

