-- ==== Sys2Proof/Laws/Runs.lean ====
section
/-! SUPPORT. Runs of the core, of several steps. -/

namespace Sys2Proof.Machine

/-- A run whose first step answers goes on from its answer. -/
theorem core_run_next (n : Nat) {a b : State} (h : step a = .next b) :
    Host.Core.run Sys2Proof.core (n + 1) a = Host.Core.run Sys2Proof.core n b := by
  have h' : Sys2Proof.core.step a = .next b := h
  simp only [Host.Core.run, h']

/-- A run is its first part and then the rest. -/
theorem core_run_add (m n : Nat) : ∀ {a b : State}, Host.Core.run Sys2Proof.core m a = .next b →
    Host.Core.run Sys2Proof.core (m + n) a = Host.Core.run Sys2Proof.core n b := by
  induction m with
  | zero => intro a b h; cases h; rw [Nat.zero_add]
  | succ m ih =>
    intro a b h
    rw [show m + 1 + n = (m + n) + 1 by omega]
    simp only [Host.Core.run] at h ⊢
    split at h
    next t ht => exact ih h
    next => cases h
    next => cases h

/-- A run followed by one more step. -/
theorem core_run_snoc (n : Nat) {a b c : State} (h : Host.Core.run Sys2Proof.core n a = .next b)
    (k : step b = .next c) : Host.Core.run Sys2Proof.core (n + 1) a = .next c := by
  rw [core_run_add n 1 h, core_run_next 0 k]
  rfl

end Sys2Proof.Machine
end

