-- ==== Sys2Proof/Laws/Sequencer.lean ====
section
/-! SUPPORT. What a step can do, said once: the cases of the program transition, of the interrupt check and of the
step. -/

namespace Sys2Proof.Machine

/-- The interrupt check enters the Interrupt program or changes nothing (60_exceptions.md R211, R212). -/
theorem State.interruptCheck_cases (s : State) :
    (s.interruptEligible = true ∧ s.takes = true ∧ s.interruptCheck = s.select .interrupt) ∨
    ((s.interruptEligible && s.takes) = false ∧ s.interruptCheck = s) := by
  unfold State.interruptCheck
  split
  next h => rw [Bool.and_eq_true] at h; exact .inl ⟨h.1, h.2, rfl⟩
  next h => exact .inr ⟨Bool.eq_false_iff.2 h, rfl⟩

/-- The cases of phases 2 and 3 (43_sequencer.md R182 to R187). -/
theorem State.advance_cases (s : State) :
    (s.programEnds = false ∧ s.advance = .next { s with uidx := s.nextIndex }) ∨
    (s.programEnds = true ∧ s.prog ≠ .fetch ∧ s.advance = .next (s.select .fetch)) ∨
    (s.programEnds = true ∧ s.prog = .fetch ∧ s.rom.defines (opByte (s.reg .ir)) = false ∧
      s.advance = .next (s.stopUndefined (opByte (s.reg .ir)))) ∨
    (s.programEnds = true ∧ s.prog = .fetch ∧ s.rom.defines (opByte (s.reg .ir)) = true ∧
      opByte (s.reg .ir) = s.cfg.haltOpcode ∧ s.advance = .next s.stopHalted) ∨
    (s.programEnds = true ∧ s.prog = .fetch ∧ s.rom.defines (opByte (s.reg .ir)) = true ∧
      opByte (s.reg .ir) ≠ s.cfg.haltOpcode ∧ s.advance = .next (s.select (.exec (opByte (s.reg .ir))))) := by
  unfold State.advance
  cases he : s.programEnds with
  | false => exact .inl ⟨rfl, rfl⟩
  | true =>
    by_cases hp : s.prog = .fetch
    · have ht : s.transition = s.decodeIr := by simp [State.transition, hp]
      rw [if_pos rfl, ht]
      rcases s.decodeIr_cases with ⟨h1, h2⟩ | ⟨h1, h2, h3⟩ | ⟨h1, h2, h3⟩
      · exact .inr (.inr (.inl ⟨rfl, hp, h1, by rw [h2]; rfl⟩))
      · exact .inr (.inr (.inr (.inl ⟨rfl, hp, h1, h2, by rw [h3]; rfl⟩)))
      · exact .inr (.inr (.inr (.inr ⟨rfl, hp, h1, h2, by rw [h3]; rfl⟩)))
    · have ht : s.transition = .fetch := by simp [State.transition, hp]
      exact .inr (.inl ⟨rfl, hp, by rw [if_pos rfl, ht]; rfl⟩)

/-- The state that phases 4 and 5 and the used input leave. -/
def State.afterService (s : State) : State :=
  (State.service { s with early := false }).interruptCheck.consumeInput

theorem State.finishStep_of_advance {s u : State} (h : s.advance = .next u) : s.finishStep = .next u.afterService := by
  simp only [State.finishStep, h]
  rfl

/-- Phases 2 to 5 answer a next state. -/
theorem State.finishStep_next (s : State) : ∃ u, s.advance = .next u ∧ s.finishStep = .next u.afterService := by
  rcases s.advance_cases with h | h | h | h | h
  · exact ⟨_, h.2, State.finishStep_of_advance h.2⟩
  · exact ⟨_, h.2.2, State.finishStep_of_advance h.2.2⟩
  · exact ⟨_, h.2.2.2, State.finishStep_of_advance h.2.2.2⟩
  · exact ⟨_, h.2.2.2.2, State.finishStep_of_advance h.2.2.2.2⟩
  · exact ⟨_, h.2.2.2.2, State.finishStep_of_advance h.2.2.2.2⟩

/-- A step that answers a next state: the core runs, a microinstruction is fetched and answers, and either it faulted
and the step ends, or phases 2 to 5 follow. -/
theorem step_next {s t : State} (h : step s = .next t) :
    s.run = .running ∧ ∃ i u, s.fetchMicro = .ok i ∧ exec i s = .next u ∧
      ((u.run ≠ .running ∧ t = u.consumeInput) ∨
       (u.run = .running ∧ ∃ w, u.advance = .next w ∧ t = w.afterService)) := by
  unfold step State.stepOnce at h
  split at h
  next hr =>
    refine ⟨hr, ?_⟩
    unfold State.runStep at h
    split at h
    · cases h
    next i hi =>
      split at h
      next u hu =>
        split at h
        next hru =>
          obtain ⟨w, hw, hf⟩ := u.finishStep_next
          rw [hf] at h
          cases h
          exact ⟨i, u, hi, hu, .inr ⟨hru, w, hw, rfl⟩⟩
        next hru => cases h; exact ⟨i, u, hi, hu, .inl ⟨hru, rfl⟩⟩
      · cases h
      · cases h
  · cases h
  · cases h
  · cases h

/-- A running core that fetches a microinstruction which answers and does not fault takes the whole step. -/
theorem step_of_exec {s u w : State} {i : Instr} (hr : s.run = .running) (hi : s.fetchMicro = .ok i)
    (hu : exec i s = .next u) (hur : u.run = .running) (hw : u.advance = .next w) : step s = .next w.afterService := by
  simp only [step, State.stepOnce, hr, State.runStep, hi, hu, hur, if_true, State.finishStep_of_advance hw]

/-- A running core whose microinstruction faults ends the step there. -/
theorem step_of_fault {s u : State} {i : Instr} (hr : s.run = .running) (hi : s.fetchMicro = .ok i)
    (hu : exec i s = .next u) (hur : u.run ≠ .running) : step s = .next u.consumeInput := by
  simp only [step, State.stepOnce, hr, State.runStep, hi, hu, if_neg hur]

theorem State.programLength_eq {s : State} {P : Program} (h : s.rom.program s.prog = some P) :
    s.programLength = P.length := by
  simp [State.programLength, State.program, h]

/-- Phases 2 and 3 change the cursor and the run state only. -/
theorem State.advance_same {s w : State} (h : s.advance = .next w) :
    w.regs = s.regs ∧ w.mem = s.mem ∧ w.rom = s.rom ∧ w.cfg = s.cfg ∧ w.keyPending = s.keyPending ∧ w.out = s.out ∧
      w.inputs = s.inputs ∧ w.tick = s.tick := by
  rcases s.advance_cases with ⟨-, e⟩ | ⟨-, -, e⟩ | ⟨-, -, -, e⟩ | ⟨-, -, -, -, e⟩ | ⟨-, -, -, -, e⟩ <;> rw [e] at h <;>
    cases h <;> exact ⟨rfl, rfl, rfl, rfl, rfl, rfl, rfl, rfl⟩

/-- What phases 4 and 5 leave alone. -/
theorem State.afterService_same (w : State) :
    w.afterService.regs = w.regs ∧ w.afterService.run = w.run ∧ w.afterService.rom = w.rom ∧
      w.afterService.cfg = w.cfg ∧ w.afterService.early = false := by
  unfold State.afterService
  rcases State.interruptCheck_cases (State.service { w with early := false }) with ⟨-, -, e⟩ | ⟨-, e⟩ <;> rw [e] <;>
    simp

/-- The memory and the host's side after phases 4 and 5 are what the service routine leaves. -/
theorem State.afterService_served (w : State) :
    w.afterService.mem = (State.service { w with early := false }).mem ∧
      w.afterService.out = (State.service { w with early := false }).out ∧
      w.afterService.keyPending = (State.service { w with early := false }).keyPending := by
  unfold State.afterService
  rcases State.interruptCheck_cases (State.service { w with early := false }) with ⟨-, -, e⟩ | ⟨-, e⟩ <;> rw [e] <;>
    simp

/-- Phase 5 keeps the cursor, or enters the Interrupt program at a boundary with I and E both 1. -/
theorem State.afterService_cursor (w : State) :
    (w.afterService.prog = w.prog ∧ w.afterService.uidx = w.uidx) ∨
    (w.run = .running ∧ w.uidx = 0 ∧ w.afterService.uidx = 0 ∧ w.afterService.prog = .interrupt ∧
      (w.reg .psr).getLsbD 13 = true ∧ (w.reg .psr).getLsbD 12 = true) := by
  unfold State.afterService
  rcases State.interruptCheck_cases (State.service { w with early := false }) with ⟨h, -, e⟩ | ⟨-, e⟩ <;> rw [e]
  · right
    simp only [State.interruptEligible, Bool.and_eq_true, beq_iff_eq] at h
    obtain ⟨⟨⟨⟨h1, h2⟩, h3⟩, h4⟩, -⟩ := h
    rw [State.flag_i] at h3
    rw [State.flag_e] at h4
    exact ⟨by simpa using h1, by simpa using h2, rfl, rfl, by simpa [State.reg] using h3, by simpa [State.reg] using h4⟩
  · left; simp

end Sys2Proof.Machine
end

