-- ==== Sys2Proof/Tests/Slice0.lean ====
section
/-! SUPPORT. Tests of the model, each on fixed values taken from the spec (95_test_vectors.md, the rules' examples and the
opcode table), and for each statement a witness that its hypotheses can be met together. -/

namespace Sys2Proof.Tests

open Sys2Proof Sys2Proof.Machine

/-! ## The fixture (95_test_vectors.md): HALT_OPCODE 0xFF, IB_VALUE 0x0040 -/

def cfgFix : Params :=
  { haltOpcode := 0xFF
    ibValue := 0x0040
    spelling := Spelling.fixture
    policy := .eager
    boundary := .anyProgramBoundary
    resetRegs := Regs.zero }

/-- The Fetch and Interrupt programs of the fixture table and four of its opcodes. -/
def romFix : Rom :=
  { entries :=
      [(.fetch, [.move .pc .whole .mar .whole, .ramRd .ir .whole, .move .pc .whole .inc .whole,
          .move .inc .whole .pc .whole]),
       (.interrupt, [.lit 0 .psr .i, .litIb .pc .whole]),
       (.exec 0x01, [.move .ir .low .a .whole]),
       (.exec 0x03, [.move .ir .low .mar .whole, .ramWr .a .whole]),
       (.exec 0x06, [.psrTest .z true, .move .ir .low .pc .whole]),
       (.exec 0x0C, []),
       (.exec 0xFF, [.nopEntry])]
    literal := [] }

/-- A clock reading and the driver's choice. -/
def inputFix : StepInput := ⟨⟨1, 2, 3, 4, 5, 6⟩, true⟩

/-- A running core with the fixture table at a cursor, with the given registers and memory. -/
def core (g : Regs) (m : Memory) (k : ProgKey) (u : Nat) : State :=
  { State.reset with
    regs := g
    mem := m
    prog := k
    uidx := u
    rom := romFix
    cfg := cfgFix
    inputs := [inputFix, inputFix] }

/-- The core at the start of Fetch with cleared registers and memory. -/
def start : State := core Regs.zero [] .fetch 0

/-- What an instruction leaves, on a core with the given registers and memory. -/
def after (i : Instr) (g : Regs) (m : Memory) (f : State → Bool) : Bool :=
  match exec i (core g m .fetch 0) with
  | .next t => f t
  | .fault _ => false
  | .refused _ => false

/-- What one step leaves. -/
def afterStep (s : State) (f : State → Bool) : Bool :=
  match Machine.step s with
  | .next t => f t
  | .fault _ => false
  | .refused _ => false

/-! ## Well-formedness: an ill-formed term for each check -/

/-- The opcodes the smoke tests take as defined: 0x01 and 0xFF. -/
def definedFix (op : Byte) : Bool := op == 0x01 || op == 0xFF

theorem test_wf_lit_spec : (Instr.lit 1 .a .c).wf definedFix 0xFF = false := by decide
theorem test_wf_litIb_spec : (Instr.litIb .pc .i).wf definedFix 0xFF = false := by decide
theorem test_wf_ramRd_spec : (Instr.ramRd .mdr .int).wf definedFix 0xFF = false := by decide
theorem test_wf_ramWr_spec : (Instr.ramWr .b .z).wf definedFix 0xFF = false := by decide
theorem test_wf_move_source : (Instr.move .a .c .b .whole).wf definedFix 0xFF = false := by decide
theorem test_wf_move_destination : (Instr.move .psr .c .b .n).wf definedFix 0xFF = false := by decide
theorem test_wf_undefined_opcode : (Instr.undefined 0x01 0).wf definedFix 0xFF = false := by decide
theorem test_wf_exec_opcode : (Instr.exec 0x02 0).wf definedFix 0xFF = false := by decide
theorem test_wf_exec_halt : (Instr.exec 0xFF 0).wf definedFix 0xFF = false := by decide
theorem test_wf_halt_without_record : (Instr.halt 0).wf definedFix 0x55 = false := by decide
theorem test_wf_program_micro : Program.wf [.exec 0x01 0] = false := by decide
theorem test_wf_program_spec : Program.wf [.move .a .c .b .whole] = false := by decide
theorem test_wf_program_empty_entry : Program.wf [.move .a .whole .b .whole, .nopEntry] = false := by decide
theorem test_wf_spelling : ({ Spelling.fixture with lit := kwRam } : Spelling).wf = false := by decide
theorem test_wf_spelling_specs : ({ Spelling.fixture with high := [] } : Spelling).wf = false := by decide
theorem test_wf_spelling_ops : ({ Spelling.fixture with opOr := ['A', 'N', 'D'] } : Spelling).wf = false := by decide

/-! ## The ROM check (30_encoding.md R96, and the table vectors RC1 to RC10 of 95_test_vectors.md) -/

/-- The check that refuses a table of the given records. -/
def refusedBy (rs : List Record) : Option RomCheck :=
  match loadTable Spelling.fixture rs with
  | .ok _ => none
  | .error c => some c

/-- The two reserved records, empty, and one more. -/
def withRecord (key : Token) (p : List Tuple) : List Record :=
  [⟨keyFetch, [], [], []⟩, ⟨keyInterrupt, [], [], []⟩, ⟨key, [], [], p⟩]

def key00 : Token := ['0', '0']

theorem test_rom_admitted : refusedBy (withRecord key00 [⟨['a'], [], ['b'], []⟩]) = none := by decide
theorem test_rom_hasFetch : refusedBy [⟨keyInterrupt, [], [], []⟩] = some .hasFetch := by decide
theorem test_rom_hasInterrupt : refusedBy [⟨keyFetch, [], [], []⟩] = some .hasInterrupt := by decide
theorem test_rom_uniqueKeys :
    refusedBy (withRecord ['0', 'a'] [] ++ [⟨['0', 'A'], [], [], []⟩]) = some .uniqueKeys := by decide
theorem test_rom_resolves : refusedBy (withRecord key00 [⟨kwAlu, ['M', 'U', 'L'], [], []⟩]) = some .resolves := by
  decide
theorem test_rom_specApplies : refusedBy (withRecord key00 [⟨['a'], ['C'], ['b'], []⟩]) = some .specApplies := by
  decide
theorem test_rom_nopFirstOnly :
    refusedBy (withRecord key00 [⟨['a'], [], ['b'], []⟩, ⟨[], [], [], []⟩]) = some .nopFirstOnly := by decide
theorem test_rom_literalParses :
    refusedBy (withRecord key00 [⟨['l', 'i', 't'], ['0', 'x', 'G', '1'], ['a'], []⟩]) = some .literalParses := by
  decide
theorem test_rom_testExpect : refusedBy (withRecord key00 [⟨kwPsr, ['Z'], ['2'], []⟩]) = some .testExpect := by decide
theorem test_rom_testBit : refusedBy (withRecord key00 [⟨kwPsr, ['I', 'N', 'T'], ['1'], []⟩]) = some .testBit := by
  decide
theorem test_rom_ramWhole : refusedBy (withRecord key00 [⟨kwRam, ['L', 'O'], ['a'], []⟩]) = some .ramWhole := by decide
theorem test_rom_noRamToRam : refusedBy (withRecord key00 [⟨kwRam, [], kwRam, []⟩]) = some .noRamToRam := by decide

/-- A record with a malformed key is kept and refuses nothing (30_encoding.md R91). -/
theorem test_rom_malformed_key : refusedBy (withRecord ['0', 'G'] [⟨['x'], [], [], []⟩]) = none := by decide

/-! ## Decoding, from the encodings of the opcode table (30_encoding.md R89, R81, R90) in the spec's example spelling -/

theorem test_decode_nopEntry : decodeTuple Spelling.fixture ⟨[], [], [], []⟩ = .ok .nopEntry := rfl
theorem test_decode_lit :
    decodeTuple Spelling.fixture ⟨['l', 'i', 't'], ['$', '1', 'F'], ['p', 's', 'r'], ['H', 'I']⟩ =
      .ok (.lit 31 .psr .high) := rfl
theorem test_decode_litIb : decodeTuple Spelling.fixture ⟨['I', 'B'], ['?'], ['p', 'c'], []⟩ = .ok (.litIb .pc .whole) := rfl
theorem test_decode_ramRd :
    decodeTuple Spelling.fixture ⟨['r', 'a', 'm'], [], ['i', 'r'], ['L', 'O']⟩ = .ok (.ramRd .ir .low) := rfl
theorem test_decode_ramWr :
    decodeTuple Spelling.fixture ⟨['a'], ['H', 'I'], ['r', 'a', 'm'], []⟩ = .ok (.ramWr .a .high) := rfl
theorem test_decode_psrTest :
    decodeTuple Spelling.fixture ⟨['?', 'p', 's', 'r'], ['C'], ['0'], []⟩ = .ok (.psrTest .c false) := rfl
theorem test_decode_move :
    decodeTuple Spelling.fixture ⟨['m', 'd', 'r'], ['L', 'O'], ['s', 'p'], ['H', 'I']⟩ =
      .ok (.move .mdr .low .sp .high) := rfl

/-- The tuple `(alu op)`. -/
def aluText (op : Token) : Except RomCheck Instr := decodeTuple Spelling.fixture ⟨['a', 'l', 'u'], op, [], []⟩

theorem test_decode_aluAdd : aluText ['A', 'D', 'D'] = .ok .aluAdd := rfl
theorem test_decode_aluAddc : aluText ['A', 'D', 'D', 'C'] = .ok .aluAddc := rfl
theorem test_decode_aluSub : aluText ['S', 'U', 'B'] = .ok .aluSub := rfl
theorem test_decode_aluShl : aluText ['S', 'H', 'L'] = .ok .aluShl := rfl
theorem test_decode_aluShr : aluText ['S', 'H', 'R'] = .ok .aluShr := rfl
theorem test_decode_aluAnd : aluText ['A', 'N', 'D'] = .ok .aluAnd := rfl
theorem test_decode_aluOr : aluText ['O', 'R'] = .ok .aluOr := rfl
theorem test_decode_aluNot : aluText ['N', 'O', 'T'] = .ok .aluNot := rfl
theorem test_decode_aluInc : aluText ['I', 'N', 'C'] = .ok .aluInc := rfl
theorem test_decode_aluDec : aluText ['D', 'E', 'C'] = .ok .aluDec := rfl
theorem test_decode_aluSwap : aluText ['S', 'W', 'A', 'P'] = .ok .aluSwap := rfl

/-- 0x2042: opcode byte 0x20, low byte 0x42, without a record of that key. -/
theorem test_decode_undefined : decodeMacro false 0xFF 0x2042 = .undefined 0x20 0x42 := by decide
theorem test_decode_halt : decodeMacro true 0xFF 0xFF12 = .halt 0x12 := by decide
theorem test_decode_exec : decodeMacro true 0xFF 0x0742 = .exec 0x07 0x42 := by decide

/-- The test for a record comes before the test for HALT (43_sequencer.md R185). -/
theorem test_decode_halt_without_record : decodeMacro false 0xFF 0xFF00 = .undefined 0xFF 0x00 := by decide

theorem test_decode_fetch :
    decode Spelling.fixture definedFix 0xFF (.key ['f', 'e', 't', 'c', 'h']) = .ok .fetch := rfl
theorem test_decode_interrupt :
    decode Spelling.fixture definedFix 0xFF (.key ['i', 'n', 't', 'e', 'r', 'r', 'u', 'p', 't']) = .ok .interrupt := rfl

/-- Record keys are two hex digits in either case (30_encoding.md R92). -/
theorem test_parse_keys : parseKey ['0', 'b'] = some (.exec 0x0B) ∧ parseKey ['F', 'f'] = some (.exec 0xFF) ∧
    parseKey ['1', '2', '3'] = none := by decide

/-- The reserved keys are matched with their letter case (log 24). -/
theorem test_parse_reserved_keys : parseKey ['f', 'e', 't', 'c', 'h'] = some .fetch ∧
    parseKey ['F', 'e', 't', 'c', 'h'] = none := by decide

/-- After `State.reset` every macro word is an undefined opcode, with all its bits. -/
theorem test_table_word : decodeTableWord 16 0xA55A = some (.undefined 0xA5 0x5A) := rfl

/-- The step of that word records its opcode byte and leaves the cursor at `(FETCH, 0)` (43_sequencer.md R185). -/
theorem test_fetch_word :
    afterStep (State.reset.withFetchWord 16 0xA55A) (fun t =>
      t.run == .decodeError 0xA5 && t.prog == .fetch && t.uidx == 0) = true := rfl

/-! ## One instruction -/

/-- 41_microinstructions.md R131's example. -/
theorem test_lit : after (.lit 1 .psr .e) { Regs.zero with psr := 0x0002 } [] (fun t => t.reg .psr == 0x1002) = true := by
  decide

/-- A literal of 0x10005 is reduced, and `inc` adds 1 (41_microinstructions.md R131). -/
theorem test_lit_reduced : after (.lit 0x10005 .inc .whole) Regs.zero [] (fun t => t.reg .inc == 6) = true := by decide

/-- 41_microinstructions.md R132's example. -/
theorem test_litIb : after (.litIb .pc .whole) Regs.zero [] (fun t => t.reg .pc == 0x0040) = true := by decide

/-- 41_microinstructions.md R133's example. -/
theorem test_ramRd : after (.ramRd .ir .whole) { Regs.zero with mar := 0x0010 } [(0x010, 0x0105)]
    (fun t => t.reg .ir == 0x0105) = true := by decide

/-- The first address with no memory (41_microinstructions.md R133). -/
theorem test_ramRd_fault : after (.ramRd .mar .whole) { Regs.zero with mar := 0x1000 } []
    (fun t => t.run == .faulted (.memReadOutOfRange 0x1000) && t.reg .mar == 0x1000) = true := by decide

/-- 41_microinstructions.md R134's example with a byte source. -/
theorem test_ramWr_byte : after (.ramWr .a .high) { Regs.zero with mar := 0x0010, a := 0xBEEF } [(0x011, 7)]
    (fun t => t.mem == [(0x010, 0x00BE), (0x011, 7)]) = true := by decide

/-- A store where no memory is (20_memory.md R53). -/
theorem test_ramWr_dropped : after (.ramWr .a .whole) { Regs.zero with mar := 0x1010, a := 0xBEEF } [(0x011, 7)]
    (fun t => t.mem == [(0x011, 7)] && t.run == .running) = true := by decide

/-- 41_microinstructions.md R135's example. -/
theorem test_move : after (.move .ir .low .pc .whole) { Regs.zero with ir := 0x0742 } []
    (fun t => t.reg .pc == 0x0042) = true := by decide

/-- 40_operand_addressing.md R114's corner case: a byte write to `inc` loses the carry. -/
theorem test_move_inc_low : after (.move .a .whole .inc .low) { Regs.zero with inc := 0x1200, a := 0x00FF } []
    (fun t => t.reg .inc == 0x1200) = true := by decide

/-- 40_operand_addressing.md R116's corner case. -/
theorem test_psr_masked : after (.lit 0xFFFF .psr .whole) Regs.zero [] (fun t => t.reg .psr == 0x370F) = true := by
  decide

theorem test_nopEntry : after .nopEntry { Regs.zero with a := 5 } [] (fun t => t == core { Regs.zero with a := 5 } [] .fetch 0) =
    true := by decide

/-- 41_microinstructions.md R137's example: Z is 0. -/
theorem test_psrTest_fails : after (.psrTest .z true) Regs.zero [] (fun t => t.early) = true := by decide
theorem test_psrTest_holds : after (.psrTest .z true) { Regs.zero with psr := 2 } [] (fun t => !t.early) = true := by
  decide

/-- `alur` and `psr` after an operation on `x` and `y`, with C as given and I, E and INT set. -/
def aluGives (i : Instr) (x y : Word) (c : Bool) (r psr : Word) : Bool :=
  after i { Regs.zero with alux := x, aluy := y, psr := 0x3700 ||| bitWord c } [] (fun t =>
    t.reg .alur == r && t.reg .psr == 0x3700 ||| psr && t.reg .alux == x && t.reg .aluy == y)

/-! The ALU vectors of 95_test_vectors.md: the last Word holds V, N, Z, C in bits 3 to 0. -/

theorem test_alu_add : aluGives .aluAdd 0x7FFF 0x000F false 0x800E 0b1100 = true := by decide
theorem test_alu_add_wraps : aluGives .aluAdd 0x8000 0x8000 false 0x0000 0b1011 = true := by decide
theorem test_alu_addc : aluGives .aluAddc 0x7FFF 0x0000 true 0x8000 0b1100 = true := by decide
theorem test_alu_addc_carry : aluGives .aluAddc 0xFFFF 0xFFFF true 0xFFFF 0b0101 = true := by decide
theorem test_alu_sub : aluGives .aluSub 0x00AB 0x00BA false 0xFFF1 0b1101 = true := by decide
theorem test_alu_sub_same : aluGives .aluSub 0x8000 0x8000 false 0x0000 0b1010 = true := by decide
theorem test_alu_shl : aluGives .aluShl 0x8001 0x0000 false 0x0002 0b0001 = true := by decide
theorem test_alu_shl_sign : aluGives .aluShl 0x4000 0x0000 true 0x8000 0b0100 = true := by decide
theorem test_alu_shr : aluGives .aluShr 0x0001 0x0000 false 0x0000 0b0011 = true := by decide
theorem test_alu_shr_logical : aluGives .aluShr 0x8000 0x0000 true 0x4000 0b0000 = true := by decide
theorem test_alu_and : aluGives .aluAnd 0xF0F0 0x0FF0 true 0x00F0 0b0000 = true := by decide
theorem test_alu_or : aluGives .aluOr 0x8000 0x0001 false 0x8001 0b0100 = true := by decide
theorem test_alu_not : aluGives .aluNot 0x1234 0x0000 false 0xEDCB 0b0100 = true := by decide
theorem test_alu_inc : aluGives .aluInc 0xFFFF 0x0000 false 0x0000 0b0011 = true := by decide
theorem test_alu_inc_overflow : aluGives .aluInc 0x7FFF 0x0000 false 0x8000 0b1100 = true := by decide
theorem test_alu_dec : aluGives .aluDec 0x0000 0x0000 false 0xFFFF 0b0101 = true := by decide
theorem test_alu_dec_overflow : aluGives .aluDec 0x8000 0x0000 false 0x7FFF 0b1000 = true := by decide
theorem test_alu_swap : aluGives .aluSwap 0xDA4A 0x0000 true 0x4ADA 0b0000 = true := by decide

theorem test_undefined : after (.undefined 0x20 0x42) Regs.zero [] (fun t => t.run == .decodeError 0x20) = true := by
  decide
theorem test_halt : after (.halt 0x42) Regs.zero [] (fun t => t.run == .halted && t.prog == .fetch) = true := by decide
theorem test_exec : after (.exec 0x07 0x42) Regs.zero [] (fun t => t.prog == .exec 0x07 && t.uidx == 0) = true := by
  decide
theorem test_fetch : (match exec .fetch (core Regs.zero [] .interrupt 1) with
    | .next t => t.prog == .fetch && t.uidx == 0
    | _ => false) = true := by decide
theorem test_interrupt_taken : after .interrupt { Regs.zero with psr := 0x3000 } [] (fun t => t.prog == .interrupt) =
    true := by decide
theorem test_interrupt_masked : after .interrupt { Regs.zero with psr := 0x2000 } [] (fun t => t.prog == .fetch) =
    true := by decide

/-! ## One step -/

/-- The last entry of Fetch: `pc` is moved on and the opcode byte of `ir` selects its program; the clock cells hold the
input (43_sequencer.md R180, R187; 60_exceptions.md R225). -/
theorem test_step_decodes :
    afterStep (core { Regs.zero with ir := 0x0105, inc := 1 } [] .fetch 3) (fun t =>
      t.reg .pc == 1 && t.prog == .exec 0x01 && t.uidx == 0 && t.mem.read 0x0E8 == 1 && t.mem.read 0x0E3 == 1) =
    true := by decide

/-- HALT's own program never runs (43_sequencer.md R186). -/
theorem test_step_halts :
    afterStep (core { Regs.zero with ir := 0xFF00 } [] .fetch 3) (fun t =>
      t.run == .halted && t.prog == .fetch && t.uidx == 0) = true := by decide

/-- A store to the output data cell is emitted by the same step (60_exceptions.md R222's example). -/
theorem test_step_emits :
    afterStep (core { Regs.zero with mar := 0x00E2, a := 0x0048 } [(0x0E3, 1)] (.exec 0x03) 1) (fun t =>
      t.out == [0x0048] && t.mem.read 0x0E2 == 0 && t.mem.read 0x0E3 == 0 && t.prog == .fetch) = true := by decide

/-- A failed test ends its program (41_microinstructions.md R137's example). -/
theorem test_step_failed_test :
    afterStep (core { Regs.zero with ir := 0x0642 } [] (.exec 0x06) 0) (fun t =>
      t.reg .pc == 0 && t.prog == .fetch && t.uidx == 0 && t.early == false) = true := by decide

/-- The Interrupt program is entered at a boundary after Fetch, and the selected Execute program is lost
(60_exceptions.md R212). -/
theorem test_step_interrupts :
    afterStep (core { Regs.zero with ir := 0x0105, psr := 0x3000 } [] .fetch 3) (fun t => t.prog == .interrupt) =
    true := by decide

/-- A line `org 40` and a data line (the vector RT2 of 95_test_vectors.md). -/
theorem test_rom_text :
    loadRomText ['o', 'r', 'g', ' ', '4', '0', '\n', 'f', 'f', '0', '0'] [] = [(0x40, 0xFF00)] := by decide

/-- The first four characters of a line are the Word (the vector RT5 of 95_test_vectors.md). -/
theorem test_rom_text_comment : loadRomText ['A', 'B', 'C', 'D', ' ', ';', ' ', 'x'] [] = [(0, 0xABCD)] := by decide

/-! ## Witnesses: for each statement with hypotheses, values that meet them together -/

/-- A loaded core between two steps meets the invariant. -/
theorem witness_Inv : start.Inv :=
  { mem := rfl
    psr := rfl
    cursor := ⟨nofun, .inl rfl⟩
    halt := by rintro (h | ⟨op, h⟩) <;> cases h
    fault := nofun
    early := rfl }

/-- A halted core meets the invariant. -/
theorem witness_Inv_halted : ({ start with run := .halted } : State).Inv :=
  { mem := rfl
    psr := rfl
    cursor := ⟨nofun, .inl rfl⟩
    halt := fun _ => ⟨rfl, rfl⟩
    fault := nofun
    early := rfl }

theorem witness_DecodeOfEncodeIsTheInstruction :
    Spelling.fixture.wf = true ∧ (Instr.move .ir .low .psr .int).wf definedFix 0xFF = true ∧
      (Instr.lit 0x10000 .inc .high).wf definedFix 0xFF = true ∧ (Instr.undefined 0x00 0xFF).wf definedFix 0xFF = true ∧
      (Instr.halt 0xFF).wf definedFix 0xFF = true ∧ (Instr.exec 0x01 0x00).wf definedFix 0xFF = true := by decide

theorem witness_DecoderAnswersWellFormedOnly :
    decode Spelling.fixture definedFix 0xFF (.word 0x01FF) = .ok (.exec 0x01 0xFF) ∧
      decode Spelling.fixture definedFix 0xFF (.tuple ⟨kwAlu, ['O', 'R'], [], []⟩) = .ok .aluOr := ⟨rfl, rfl⟩

theorem witness_SpecsApplyAsStated :
    Spelling.fixture.wf = true ∧ Spec.c.appliesTo .a = false ∧ Spec.int.appliesTo .alur = false ∧
      Spec.whole.appliesTo .psr = true := by decide

/-- The last bit inside the high byte and the first bit outside it; bit 8 of `psr` next to the low byte; a value wider than
the field INT, whose low bits are stored (40_operand_addressing.md R115's corner cases). -/
theorem witness_FieldWritesAreIsolated :
    Spec.high ≠ .whole ∧ Spec.high.appliesTo .a = true ∧ 7 < fieldWidth .high ∧ (fieldMask .high).getLsbD 7 = false ∧
      Spec.low.appliesTo .psr = true ∧ (fieldMask .low).getLsbD 8 = false ∧ psrMask.getLsbD 8 = true ∧
      Spec.int.appliesTo .psr = true ∧ 2 < fieldWidth .int ∧ (fieldMask .int).getLsbD 0 = false ∧
      (({ start with regs := { Regs.zero with a := 0x3456 } } : State).write .a .high 0x12AB).reg .a = 0xAB56 ∧
      (start.write .psr .int 0x000F).reg .psr = 0x0700 ∧ (start.write .psr .c 0x0002).reg .psr = 0 := by decide

theorem witness_PsrFieldsRoundTrip :
    Spec.int ∈ [Spec.v, .n, .z, .c, .int, .i, .e] ∧ (7 : Word).toNat < 2 ^ fieldWidth .int ∧
      Spec.e ∈ [Spec.v, .n, .z, .c, .int, .i, .e] ∧ Spec.e ≠ .int ∧ (1 : Word).toNat < 2 ^ fieldWidth .e := by decide

/-- 65535, 65536, −1 and a value that is no number; `inc` at 65535; `psr` at 65535; the interrupt request, a field write of
`psr`; a spec that does not apply. -/
theorem witness_WholeWritesWrap :
    normValue (.num 65535) = 0xFFFF ∧ normValue (.num 65536) = 0 ∧ normValue (.num (-1)) = 0 ∧
      normValue .nonNumeric = 0 ∧ RegName.a ≠ .inc ∧ RegName.a ≠ .psr ∧
      (start.write .inc .whole (normValue (.num 65535))).reg .inc = 0 ∧
      (start.write .psr .whole (normValue (.num 65535))).reg .psr = 0x370F ∧
      Spec.i ≠ .whole ∧ Spec.i.appliesTo .psr = true ∧ (start.write .psr .i (normValue (.num 3))).reg .psr = 0x2000 ∧
      Spec.i.appliesTo .a = false := by decide

theorem witness_PsrReservedBitsStayZero : start.psrOk ∧ ∃ t, exec (.lit 0xFFFF .psr .whole) start = .next t :=
  ⟨rfl, _, rfl⟩

theorem witness_LiteralsAreWritten : Spec.i.appliesTo .psr = true ∧ Spec.high.appliesTo .inc = true := by decide

theorem witness_MovesReadBeforeTheyWrite : Spec.high.appliesTo .a = true ∧ Spec.low.appliesTo .a = true ∧
    Spec.c.appliesTo .psr = true := by decide

theorem witness_MovesWithinOneRegister : RegName.a ≠ .inc ∧ RegName.a ≠ .psr := by decide

/-- A core whose `mar` holds the last address of the memory, and one whose `mar` holds the first one outside it. -/
def atEdge (mar : Word) : State := core { Regs.zero with mar := mar, a := 0xBEEF } [(0x0E3, 1)] (.exec 0x03) 1

theorem witness_RamReadLoadsTheWordAtMar : Spec.whole.appliesTo .ir = true ∧ ((atEdge 0x0FFF).reg .mar).toNat < 4096 := by
  decide

theorem witness_RamReadFaultsOutsideMemory :
    Spec.whole.appliesTo .ir = true ∧ 4096 ≤ ((atEdge 0x1000).reg .mar).toNat := by decide

theorem witness_RamWriteStoresAtMar :
    (atEdge 0x0FFF).mem.wf = true ∧ Spec.high.appliesTo .a = true ∧ ((atEdge 0x0FFF).reg .mar).toNat < 4096 ∧
      (atEdge 0x1000).mem.wf = true ∧ 4096 ≤ ((atEdge 0x1000).reg .mar).toNat := by decide

theorem witness_LoadAfterStoreGivesTheWord :
    (atEdge 0x0FFF).mem.wf = true ∧ Spec.high.appliesTo .a = true ∧ ((atEdge 0x0FFF).reg .mar).toNat < 4096 ∧
      RegName.mar ≠ .inc ∧ RegName.mar ≠ .psr := by decide

theorem witness_CanonicalMemoryIsDeterminedByItsReads :
    Memory.wf [(0, 1), (4095, 0xFFFF)] = true ∧
      ∀ a, Memory.read [(0, 1), (4095, 0xFFFF)] a = Memory.read (Memory.write [(0, 1)] 4095 0xFFFF) a :=
  ⟨by decide, fun _ => rfl⟩

theorem witness_SwapExchangesBytes :
    ∃ t u w : State, exec .aluSwap start = .next t ∧ exec (.move .alur .whole .alux .whole) t = .next u ∧
      exec .aluSwap u = .next w := ⟨_, _, _, rfl, rfl, rfl⟩

/-- Both clauses: I and E set at a boundary, and E clear. -/
theorem witness_InterruptEntryChangesOnlyProg :
    (core { Regs.zero with psr := 0x3000 } [] .fetch 0).interruptEligible = true ∧
      (core { Regs.zero with psr := 0x3000 } [] .fetch 0).takes = true ∧
      (core { Regs.zero with psr := 0x2000 } [] .fetch 0).interruptEligible = false := by decide

/-- The clauses: a step that does not end its program, the end of Fetch, the end of another program, and phases 4 and 5. -/
theorem witness_StepRunsTheFetchedInstruction :
    start.run = .running ∧ start.fetchMicro = .ok (.move .pc .whole .mar .whole) ∧ start.programEnds = false ∧
      (core Regs.zero [] .fetch 3).programEnds = true ∧ (core Regs.zero [] (.exec 0x01) 0).programEnds = true ∧
      ∃ w t, start.advance = .next w ∧ exec .interrupt (State.service { w with early := false }) = .next t :=
  ⟨rfl, rfl, by decide, by decide, by decide, _, _, rfl, rfl⟩

/-- The clauses: an empty program, one whose first entry is empty, and an entry of another. -/
theorem witness_FetchFollowsTheTable :
    romFix.check = none ∧ romFix.program (.exec 0x0C) = some [] ∧ romFix.program (.exec 0xFF) = some [.nopEntry] ∧
      romFix.program .interrupt = some [.lit 0 .psr .i, .litIb .pc .whole] := ⟨by decide, rfl, rfl, rfl⟩

theorem witness_AdmittedCoreAlwaysSteps : start.Inv ∧ start.rom.check = none ∧ start.run = .running :=
  ⟨witness_Inv, by decide, rfl⟩

theorem witness_EveryStepKeepsTheInvariant : start.Inv ∧ ∃ t, Machine.step start = .next t := ⟨witness_Inv, _, rfl⟩

theorem witness_HostActionsKeepTheInvariant :
    start.Inv ∧ (∃ t, hostAct (.pressKey 0x41) start = .next t) ∧
      ({ start with run := .halted } : State).Inv ∧ ∃ t, hostAct .restart { start with run := .halted } = .next t :=
  ⟨witness_Inv, ⟨_, rfl⟩, witness_Inv_halted, _, rfl⟩

theorem witness_ReachedStatesAreSound :
    start.Inv ∧ (∃ t, Reaches start t ∧ t.uidx = 1) ∧
      ∃ t, Reaches State.reset t ∧ t.mem.read 0x0FFF = 7 :=
  ⟨witness_Inv, ⟨_, .tail .refl (.step rfl), rfl⟩, ⟨_, .tail .refl (.host (.writeMem 0x0FFF (.num 7)) rfl), by decide⟩⟩

theorem witness_NoStepUnlessRunning :
    (∃ s : State, s.run = .halted) ∧ (∃ s : State, s.run = .decodeError 0x20) ∧
      (∃ s : State, s.run = .faulted (.memReadOutOfRange 0x1000)) ∧ start.run = .running ∧ start.Inv ∧
      start.rom.check = none :=
  ⟨⟨{ start with run := .halted }, rfl⟩, ⟨{ start with run := .decodeError 0x20 }, rfl⟩,
    ⟨{ start with run := .faulted (.memReadOutOfRange 0x1000) }, rfl⟩, rfl, witness_Inv, by decide⟩

/-- A Fetch read at 0x1000, and a host action on a faulted core. -/
theorem witness_FaultEndsTheStep :
    (core { Regs.zero with mar := 0x1000 } [] .fetch 1).fetchMicro = .ok (.ramRd .ir .whole) ∧
      4096 ≤ ((core { Regs.zero with mar := 0x1000 } [] .fetch 1).reg .mar).toNat ∧
      ∃ t, hostAct (.pressKey 1) { start with run := .faulted (.memReadOutOfRange 0x1000) } = .next t :=
  ⟨rfl, by decide, _, rfl⟩

theorem witness_FailedTestEndsTheProgram :
    (core Regs.zero [] (.exec 0x06) 0).mem.wf = true ∧ (core Regs.zero [] (.exec 0x06) 0).run = .running ∧
      (core Regs.zero [] (.exec 0x06) 0).fetchMicro = .ok (.psrTest .z true) ∧
      ((core Regs.zero [] (.exec 0x06) 0).read .psr PsrBit.z.spec).toNat ≠ true.toNat ∧
      (core Regs.zero [] (.exec 0x06) 0).prog ≠ .fetch := ⟨rfl, rfl, rfl, by decide, by decide⟩

/-- The last entry of Fetch with an undefined opcode, HALT and a defined opcode in `ir`. -/
theorem witness_EndOfFetchDecodes :
    (∀ ir ∈ [(0x2000 : Word), 0xFF00, 0x0105],
      (core { Regs.zero with ir := ir } [] .fetch 3).fetchMicro = .ok (.move .inc .whole .pc .whole)) ∧
      (∃ u, exec (.move .inc .whole .pc .whole) (core { Regs.zero with ir := 0x0105 } [] .fetch 3) = .next u ∧
        u.run = .running) ∧
      romFix.program (.exec 0x20) = none ∧ cfgFix.haltOpcode = 0xFF ∧ romFix.program (.exec 0x01) ≠ none :=
  ⟨by intro ir _; rfl, ⟨_, rfl, rfl⟩, rfl, rfl, by decide⟩

/-- Both clauses: the last entry of the Interrupt program, and its first. -/
theorem witness_ProgramsFallBackToFetch :
    (core Regs.zero [] .interrupt 1).fetchMicro = .ok (.litIb .pc .whole) ∧
      (∃ u, exec (.litIb .pc .whole) (core Regs.zero [] .interrupt 1) = .next u ∧ u.run = .running) ∧
      (core Regs.zero [] .interrupt 0).fetchMicro = .ok (.lit 0 .psr .i) ∧
      ∃ u, exec (.lit 0 .psr .i) (core Regs.zero [] .interrupt 0) = .next u ∧ u.run = .running ∧ u.early = false :=
  ⟨rfl, ⟨_, rfl, rfl⟩, rfl, _, rfl, rfl, rfl⟩

/-- The last entry of Fetch with I and E set. -/
def interrupted : State := core { Regs.zero with ir := 0x0105, psr := 0x3000 } [] .fetch 3

theorem witness_InterruptsOnlyAtBoundaries :
    ∃ t, Machine.step interrupted = .next t ∧ interrupted.prog ≠ .interrupt ∧ t.prog = .interrupt :=
  ⟨_, rfl, by decide, rfl⟩

theorem witness_EagerInterruptsAreTaken :
    interrupted.cfg.policy = .eager ∧ interrupted.cfg.boundary = .anyProgramBoundary ∧
      ∃ t, Machine.step interrupted = .next t ∧ t.run = .running ∧ t.uidx = 0 ∧ (t.reg .psr).getLsbD 13 = true ∧
        (t.reg .psr).getLsbD 12 = true := ⟨rfl, rfl, _, rfl, rfl, rfl, rfl, rfl⟩

/-- A program of two entries and an empty one. -/
theorem witness_ActivationTakesItsLength :
    romFix.check = none ∧ romFix.program .interrupt = some [.lit 0 .psr .i, .litIb .pc .whole] ∧
      (∀ i ∈ [Instr.lit 0 .psr .i, .litIb .pc .whole], i.goesOn = true) ∧
      (core Regs.zero [] .interrupt 0).run = .running ∧ (core Regs.zero [] .interrupt 0).early = false ∧
      romFix.program (.exec 0x0C) = some [] := ⟨by decide, rfl, by decide, rfl, rfl, rfl⟩

theorem witness_StepsWriteOnlyTheNamedRegisters :
    start.fetchMicro = .ok (.move .pc .whole .mar .whole) ∧ ∃ t, Machine.step start = .next t := ⟨rfl, _, rfl⟩

theorem witness_RomIsReadOnly :
    (∃ t, exec .aluSub start = .next t) ∧ (∃ t, Machine.step start = .next t) ∧
      (∃ t, hostAct (.pressKey 0) start = .next t) ∧
      ∃ t, hostAct (.reset [⟨keyFetch, [], [], []⟩, ⟨keyInterrupt, [], [], []⟩] []) start = .next t :=
  ⟨⟨_, rfl⟩, ⟨_, rfl⟩, ⟨_, rfl⟩, _, rfl⟩

/-- The three clauses: status 0; status 1 with a datum; status 1 without one and status 2. -/
theorem witness_OutputHandshakeIsAsStated :
    Memory.wf [] = true ∧ Memory.read [] 0x0E3 = 0 ∧ Memory.wf [(0x0E2, 0x48), (0x0E3, 1)] = true ∧
      Memory.read [(0x0E2, 0x48), (0x0E3, 1)] 0x0E3 = 1 ∧ Memory.read [(0x0E2, 0x48), (0x0E3, 1)] 0x0E2 ≠ 0 ∧
      Memory.wf [(0x0E3, 1)] = true ∧ Memory.read [(0x0E3, 1)] 0x0E2 = 0 ∧ Memory.read [(0x0E3, 1)] 0x0E3 ≠ 0 ∧
      Memory.wf [(0x0E2, 0x48), (0x0E3, 2)] = true ∧ Memory.read [(0x0E2, 0x48), (0x0E3, 2)] 0x0E3 ≠ 1 := by decide

theorem witness_InputHandshakeIsAsStated :
    start.mem.wf = true ∧ start.keyPending = none ∧ ({ start with keyPending := some 65536 } : State).mem.wf = true ∧
      ({ start with keyPending := some 65536 } : State).keyPending = some 65536 := ⟨rfl, rfl, rfl, rfl⟩

theorem witness_ClockAndTimerAreServiced :
    (core Regs.zero [(0x0EE, 1)] .fetch 0).mem.wf = true ∧ (core Regs.zero [(0x0EE, 1)] .fetch 0).mem.read 0x0EE = 1 ∧
      start.mem.wf = true ∧ start.mem.read 0x0EE = 0 := by decide

/-- The address below the first device cell and the ones beside the last. -/
theorem witness_ServiceTouchesOnlyItsCells :
    start.mem.wf = true ∧ 0x0DF ∉ deviceCells ∧ 0x0E4 ∉ deviceCells ∧ 0x0E7 ∉ deviceCells ∧ 0x0EF ∉ deviceCells := by
  decide

theorem witness_EveryStepIsServiced : ∃ t, Machine.step start = .next t ∧ ∀ r, t.run ≠ .faulted r :=
  ⟨_, rfl, fun _ h => nomatch h⟩

theorem witness_OutputIsEmittedByTheStoringStep :
    (atEdge 0x00E2).mem.wf = true ∧ (atEdge 0x00E2).run = .running ∧
      (atEdge 0x00E2).fetchMicro = .ok (.ramWr .a .whole) ∧ (atEdge 0x00E2).reg .mar = 0x0E2 ∧
      (atEdge 0x00E2).mem.read 0x0E3 = 1 ∧ (atEdge 0x00E2).read .a .whole ≠ 0 :=
  ⟨rfl, rfl, rfl, rfl, rfl, by decide⟩

/-- 4095 and 4096; 65535, 65536, −1 and a value that is no number. -/
theorem witness_HostMemoryWritesAreNormalised :
    start.mem.wf = true ∧ (start.memWrite 4095 (normValue (.num 65535))).mem.read 4095 = 0xFFFF ∧
      (start.memWrite 4095 (normValue (.num 65536))).mem.read 4095 = 0 ∧
      (start.memWrite 4095 (normValue (.num (-1)))).mem.read 4095 = 0 ∧
      (start.memWrite 4096 (normValue (.num 1))).mem.read 4096 = 0 := by decide

theorem witness_RestartLeavesHaltOnly :
    (∃ s : State, s.run = .halted) ∧ (∃ s : State, s.run = .decodeError 0xFF) ∧ (∃ s : State, s.run = .running) ∧
      ∃ s : State, s.run = .faulted (.memReadOutOfRange 0xFFFF) :=
  ⟨⟨{ start with run := .halted }, rfl⟩, ⟨{ start with run := .decodeError 0xFF }, rfl⟩, ⟨start, rfl⟩,
    ⟨{ start with run := .faulted (.memReadOutOfRange 0xFFFF) }, rfl⟩⟩

/-- A table that is admitted and one that is not. -/
theorem witness_PowerUpSetsTheState :
    (∃ rom, loadTable start.cfg.spelling (withRecord key00 [⟨['a'], [], ['b'], []⟩]) = .ok rom) ∧
      start.cfg.resetRegs = Regs.zero ∧ ∃ c, loadTable start.cfg.spelling [] = .error c :=
  ⟨⟨_, rfl⟩, rfl, _, rfl⟩

/-- A table with a program, and a record with a malformed key. -/
theorem witness_LoadedTableHoldsTheRecords :
    (∃ rom, loadTable Spelling.fixture (withRecord ['0', 'G'] []) = .ok rom) ∧ parseKey ['0', 'G'] = none ∧
      (∃ rom, loadTable Spelling.fixture (withRecord key00 [⟨['a'], [], ['b'], []⟩]) = .ok rom ∧
        rom.program (.exec 0x00) = some [.move .a .whole .b .whole]) ∧ parseKey key00 = some (.exec 0x00) :=
  ⟨⟨_, rfl⟩, rfl, ⟨_, rfl, rfl⟩, rfl⟩

theorem witness_AdmittedTablesPassTheChecks :
    ∃ rom, loadTable Spelling.fixture (withRecord key00 [⟨['a'], [], ['b'], []⟩]) = .ok rom ∧
      rom.program (.exec 0x00) = some [.move .a .whole .b .whole] := ⟨_, rfl, rfl⟩

end Sys2Proof.Tests
end

