-- ==== Sys2Proof/Proofs/StateFacts.lean ====
section
/-! SUPPORT. Facts the statements of 10_state.md share: the two bytes of a Word under a byte write, what an instruction and
a step leave of the registers, the ROM and the parameters, and the rules of the invariant. -/

namespace Sys2Proof.Machine

/-! ## The bytes of a Word -/

theorem opByte_toNat (w : Word) : (opByte w).toNat = w.toNat / 256 := by
  have h := w.isLt
  simp only [opByte, BitVec.extractLsb'_toNat, Nat.shiftRight_eq_div_pow]
  omega

theorem lowByte_toNat (w : Word) : (lowByte w).toNat = w.toNat % 256 := by
  simp [lowByte]

theorem macroWord_toNat (op d8 : Byte) : (macroWord op d8).toNat = op.toNat * 256 + d8.toNat := by
  rw [macroWord, BitVec.toNat_append, ← Nat.shiftLeft_add_eq_or_of_lt d8.isLt, Nat.shiftLeft_eq]

/-- The bits of a Word made of two bytes (30_encoding.md R81). -/
theorem getLsbD_macroWord (op d8 : Byte) (i : Nat) :
    (macroWord op d8).getLsbD i = if i < 8 then d8.getLsbD i else op.getLsbD (i - 8) := by
  rw [macroWord, BitVec.getLsbD_append]

/-- A write of the low byte keeps the high byte (40_operand_addressing.md R115). -/
theorem insertField_low (old v : Word) : insertField .low old v = macroWord (opByte old) (lowByte v) := by
  apply BitVec.eq_of_getLsbD_eq
  intro i hi
  have hmask : (fieldMask .low).getLsbD i = decide (i < 8) := by revert i; decide
  rw [getLsbD_insertField _ _ _ hi, getLsbD_macroWord, hmask]
  by_cases h : i < 8
  · simp [h, lowByte, fieldShift]
  · have hsub : i - 8 < 8 := by omega
    have hadd : 8 + (i - 8) = i := by omega
    simp [h, opByte, hsub, hadd]

/-- A write of the high byte keeps the low byte and takes the low byte of the value (40_operand_addressing.md R115). -/
theorem insertField_high (old v : Word) : insertField .high old v = macroWord (lowByte v) (lowByte old) := by
  apply BitVec.eq_of_getLsbD_eq
  intro i hi
  have hmask : (fieldMask .high).getLsbD i = !decide (i < 8) := by revert i; decide
  rw [getLsbD_insertField _ _ _ hi, getLsbD_macroWord, hmask]
  by_cases h : i < 8
  · simp [h, lowByte]
  · have hsub : i - 8 < 8 := by omega
    simp [h, lowByte, fieldShift, hsub]

/-! ## Writes to `inc` and `psr` -/

@[simp] theorem State.read_whole (s : State) (r : RegName) : s.read r .whole = s.reg r := rfl

/-- The increment comes before the field is placed (40_operand_addressing.md R114). -/
theorem writtenValue_inc (f : Spec) (old v : Word) :
    writtenValue .inc f old v = if f = .whole then v + 1 else insertField f old (v + 1) := rfl

/-- `psr` receives what an ordinary register would, masked (40_operand_addressing.md R116). -/
theorem writtenValue_psr (f : Spec) (old v : Word) :
    writtenValue .psr f old v = writtenValue .a f old v &&& psrMask := rfl

/-! ## What an instruction leaves alone -/

theorem next_inj {s t : State} (h : (Host.Outcome.next s : Result) = .next t) : t = s := by
  cases h; rfl

/-- What an instruction that is no microinstruction can do: halt the core in one of the two ways, select a program, or
nothing (43_sequencer.md R183 to R187, 60_exceptions.md R211). -/
theorem exec_control_cases {i : Instr} {s t : State} (hm : i.isMicro = false) (h : exec i s = .next t) :
    (∃ op, t = s.stopUndefined op) ∨ t = s.stopHalted ∨ (∃ k, t = s.select k) ∨ t = s := by
  cases i with
  | undefined op d8 => exact .inl ⟨op, next_inj h⟩
  | halt d8 => exact .inr (.inl (next_inj h))
  | exec op d8 => exact .inr (.inr (.inl ⟨.exec op, next_inj h⟩))
  | fetch => exact .inr (.inr (.inl ⟨.fetch, next_inj h⟩))
  | interrupt =>
    have ht : t = s.interruptCheck := next_inj h
    rcases s.interruptCheck_cases with ⟨-, -, e⟩ | ⟨-, e⟩
    · exact .inr (.inr (.inl ⟨.interrupt, ht.trans e⟩))
    · exact .inr (.inr (.inr (ht.trans e)))
  | _ => cases hm

/-- The decode classes and the reserved programs write no register, no ROM and no parameter. -/
theorem exec_control_frame {i : Instr} {s t : State} (hm : i.isMicro = false) (h : exec i s = .next t) :
    t.regs = s.regs ∧ t.rom = s.rom ∧ t.cfg = s.cfg := by
  rcases exec_control_cases hm h with ⟨op, rfl⟩ | rfl | ⟨k, rfl⟩ | rfl <;> exact ⟨rfl, rfl, rfl⟩

/-- No instruction writes the ROM or the parameters. -/
theorem exec_rom_cfg {i : Instr} {s t : State} (h : exec i s = .next t) : t.rom = s.rom ∧ t.cfg = s.cfg := by
  cases hm : i.isMicro with
  | true => exact ⟨(exec_micro_frame hm h).rom, (exec_micro_frame hm h).cfg⟩
  | false => exact (exec_control_frame hm h).2

/-- Every instruction keeps the reserved bits of `psr` at 0 (10_state.md R30). -/
theorem exec_psrOk {i : Instr} {s t : State} (hs : s.psrOk) (h : exec i s = .next t) : t.psrOk := by
  cases hm : i.isMicro with
  | true => exact (exec_micro_frame hm h).psr hs
  | false =>
    obtain ⟨hregs, -, -⟩ := exec_control_frame hm h
    simpa only [State.psrOk, State.reg, hregs] using hs

theorem State.keepsRegsBut_of_regs {s t : State} (h : t.regs = s.regs) (rs : List RegName) : s.KeepsRegsBut t rs :=
  fun _ _ => by simp only [State.reg, h]

theorem State.keepsRegsBut_write (s : State) (d : RegName) (f : Spec) (v : Word) :
    s.KeepsRegsBut (s.write d f v) [d] :=
  fun _ hr => s.write_reg_of_ne f v (List.ne_of_not_mem_cons hr)

theorem State.keepsRegsBut_storeAlu (s : State) (o : AluOut) : s.KeepsRegsBut (s.storeAlu o) [.alur, .psr] := by
  intro r hr
  simp only [List.mem_cons, List.not_mem_nil, or_false, not_or] at hr
  exact s.storeAlu_reg_of_ne o hr.1 hr.2

/-- An instruction writes no register but those it names (10_state.md R22). -/
theorem exec_keepsRegsBut {i : Instr} {s t : State} (h : exec i s = .next t) : s.KeepsRegsBut t i.writesOnly := by
  cases i with
  | lit | litIb | move => exact (whenApplies_next h).2 ▸ s.keepsRegsBut_write _ _ _
  | ramRd d ds =>
    rw [(whenApplies_next h).2]
    split
    · exact s.keepsRegsBut_write d ds _
    · exact State.keepsRegsBut_of_regs rfl _
  | ramWr => exact (whenApplies_next h).2 ▸ State.keepsRegsBut_of_regs rfl _
  | nopEntry | psrTest => exact next_inj h ▸ State.keepsRegsBut_of_regs rfl _
  | aluAdd | aluAddc | aluSub | aluShl | aluShr | aluAnd | aluOr | aluNot | aluInc | aluDec | aluSwap =>
    exact next_inj h ▸ s.keepsRegsBut_storeAlu _
  | undefined | halt | exec | fetch | interrupt =>
    exact State.keepsRegsBut_of_regs (exec_control_frame rfl h).1 _

/-! ## What a step leaves alone -/

/-- After phase 1 a step writes no register, no ROM and no parameter (43_sequencer.md R180). -/
theorem step_after_exec {s t : State} (h : step s = .next t) :
    ∃ i u, s.fetchMicro = .ok i ∧ exec i s = .next u ∧ t.regs = u.regs ∧ t.rom = u.rom ∧ t.cfg = u.cfg := by
  obtain ⟨-, i, u, hi, hu, ⟨-, rfl⟩ | ⟨-, w, hw, rfl⟩⟩ := step_next h
  · exact ⟨i, u, hi, hu, rfl, rfl, rfl⟩
  · obtain ⟨hregs, -, hrom, hcfg, -⟩ := State.advance_same hw
    obtain ⟨hregs', -, hrom', hcfg', -⟩ := w.afterService_same
    exact ⟨i, u, hi, hu, hregs'.trans hregs, hrom'.trans hrom, hcfg'.trans hcfg⟩

/-! ## What a host action leaves alone -/

/-- A restart that answers keeps the ROM and the parameters (70_reset_and_hazards.md R252). -/
theorem State.restart_rom_cfg {s t : State} (h : s.restart = .next t) : t.rom = s.rom ∧ t.cfg = s.cfg := by
  unfold State.restart at h
  split at h
  · exact next_inj h ▸ ⟨rfl, rfl⟩
  · exact next_inj h ▸ ⟨rfl, rfl⟩
  · cases h
  · cases h

/-- A reset that answers keeps the parameters (70_reset_and_hazards.md R250, log 19). -/
theorem hostAct_reset_cfg {s t : State} {table : List Record} {text : Token}
    (h : hostAct (.reset table text) s = .next t) : t.cfg = s.cfg := by
  simp only [hostAct] at h
  split at h
  · exact next_inj h ▸ rfl
  · cases h

/-! ## The invariant -/

/-- A running core has neither halted nor faulted, so the invariant asks for memory, `psr`, cursor and `early` only. -/
theorem State.Inv.of_running {t : State} (hrun : t.run = .running) (hmem : t.mem.wf = true) (hpsr : t.psrOk)
    (hcursor : t.cursorOk) (hearly : t.early = false) : t.Inv where
  mem := hmem
  psr := hpsr
  cursor := hcursor
  halt := by rintro (h | ⟨op, h⟩) <;> cases hrun.symm.trans h
  fault _ h := by cases hrun.symm.trans h
  early := hearly

/-- The cursor's soundness rests on the ROM and the cursor alone. -/
theorem State.cursorOk_congr {s t : State} (hs : s.cursorOk) (hrom : t.rom = s.rom) (hprog : t.prog = s.prog)
    (huidx : t.uidx = s.uidx) : t.cursorOk := by
  simpa only [State.cursorOk, State.programLength, State.program, hrom, hprog, huidx] using hs

/-- The cursor at the start of a program, which exists if it is an Execute program, is sound (10_state.md R32). -/
theorem State.cursorOk_select {s : State} {k : ProgKey} (hk : ∀ op, k = .exec op → s.rom.defines op = true) :
    (s.select k).cursorOk :=
  ⟨hk, .inl rfl⟩

/-- A halted core at the start of Fetch has no fault to record (43_sequencer.md R185, R186). -/
theorem State.Inv.of_halted {t : State} (hrun : t.run = .halted ∨ ∃ op, t.run = .decodeError op)
    (hmem : t.mem.wf = true) (hpsr : t.psrOk) (hprog : t.prog = .fetch) (huidx : t.uidx = 0)
    (hearly : t.early = false) : t.Inv where
  mem := hmem
  psr := hpsr
  cursor := ⟨fun _ h => (nomatch hprog.symm.trans h), .inl huidx⟩
  halt _ := ⟨hprog, huidx⟩
  fault addr h := by
    rcases hrun with hr | ⟨op, hr⟩ <;> cases hr.symm.trans h
  early := hearly

/-- A fault on a read outside the memory keeps the invariant (60_exceptions.md R203). -/
theorem State.Inv.raise {s : State} (hs : s.Inv) {addr : Word} (ha : memWords ≤ addr.toNat) :
    (s.raise (.memReadOutOfRange addr)).Inv where
  mem := hs.mem
  psr := hs.psr
  cursor := hs.cursor
  halt := by rintro (h | ⟨op, h⟩) <;> cases h
  fault addr' h := by cases h; exact ha
  early := hs.early

theorem State.Inv.consumeInput {s : State} (hs : s.Inv) : s.consumeInput.Inv :=
  ⟨hs.mem, hs.psr, hs.cursor, hs.halt, hs.fault, hs.early⟩

/-- The devices keep the invariant: it asks of the memory its form only (60_exceptions.md R210). -/
theorem State.Inv.of_sameButDevices {s t : State} (hs : s.Inv) (h : s.SameButDevices t) : t.Inv where
  mem := h.wf hs.mem
  psr := by simpa only [State.psrOk, State.reg, h.regs] using hs.psr
  cursor := State.cursorOk_congr hs.cursor h.rom h.prog h.uidx
  halt := by simpa only [State.haltOk, h.run, h.prog, h.uidx] using hs.halt
  fault := by simpa only [State.faultOk, h.run] using hs.fault
  early := h.early.trans hs.early

theorem State.Inv.service {s : State} (hs : s.Inv) : s.service.Inv :=
  hs.of_sameButDevices s.sameButDevices_service

/-- The interrupt check keeps the invariant: only a running core enters the Interrupt program (60_exceptions.md R211). -/
theorem State.Inv.interruptCheck {s : State} (hs : s.Inv) : s.interruptCheck.Inv := by
  rcases s.interruptCheck_cases with ⟨he, -, e⟩ | ⟨-, e⟩ <;> rw [e]
  · simp only [State.interruptEligible, Bool.and_eq_true, beq_iff_eq] at he
    obtain ⟨⟨⟨⟨hrun, -⟩, -⟩, -⟩, -⟩ := he
    exact .of_running hrun hs.mem hs.psr (State.cursorOk_select nofun) hs.early
  · exact hs

/-- Phases 4 and 5 keep the invariant, and clear `early` (43_sequencer.md R180). -/
theorem State.Inv.afterService {w : State} (hw : ({ w with early := false } : State).Inv) : w.afterService.Inv :=
  hw.service.interruptCheck.consumeInput

/-- A microinstruction that stops a running core is a read outside the memory, which does nothing but fault
(60_exceptions.md R203). -/
theorem exec_micro_fault {i : Instr} {s u : State} (hm : i.isMicro = true) (h : exec i s = .next u)
    (hs : s.run = .running) (hu : u.run ≠ .running) :
    memWords ≤ (s.reg .mar).toNat ∧ u = s.raise (.memReadOutOfRange (s.reg .mar)) := by
  rcases exec_micro_cases hm h with rfl | ⟨d, f, v, -, rfl⟩ | ⟨src, ss, -, rfl⟩ | ⟨o, rfl⟩ | ⟨d, ds, -, ha, rfl⟩ |
    ⟨bit, e, -, rfl⟩
  · exact absurd hs hu
  · exact absurd hs hu
  · exact absurd hs hu
  · exact absurd ((s.storeAlu_run o).trans hs) hu
  · exact ⟨ha, rfl⟩
  · exact absurd hs hu

/-- Phase 1 without a fault keeps the invariant but for `early`, which a `?psr` test sets (41_microinstructions.md
R137). -/
theorem State.Inv.of_exec_micro {i : Instr} {s u : State} (hs : s.Inv) (hm : i.isMicro = true)
    (h : exec i s = .next u) (hu : u.run = .running) : ({ u with early := false } : State).Inv := by
  have hf := exec_micro_frame hm h
  have hcursor : u.cursorOk := State.cursorOk_congr hs.cursor hf.rom hf.prog hf.uidx
  exact .of_running hu (hf.wf hs.mem) (hf.psr hs.psr) hcursor rfl

/-- Phases 2 and 3 keep the invariant but for `early`: the index stays below the program's length, or a program that
exists is selected, or the core halts at the end of Fetch (43_sequencer.md R182 to R187). -/
theorem State.Inv.of_advance {u w : State} (hu : ({ u with early := false } : State).Inv) (hrun : u.run = .running)
    (h : u.advance = .next w) : ({ w with early := false } : State).Inv := by
  rcases u.advance_cases with ⟨hend, e⟩ | ⟨-, -, e⟩ | ⟨-, hprog, -, e⟩ | ⟨-, hprog, -, -, e⟩ | ⟨-, -, hdef, -, e⟩ <;>
    obtain rfl := next_inj (e.symm.trans h)
  · have hlt : u.nextIndex < u.programLength := by simpa [State.programEnds] using hend
    exact .of_running hrun hu.mem hu.psr ⟨hu.cursor.1, .inr hlt⟩ rfl
  · exact .of_running hrun hu.mem hu.psr (State.cursorOk_select (s := u) nofun) rfl
  · exact .of_halted (.inr ⟨_, rfl⟩) hu.mem hu.psr hprog rfl rfl
  · exact .of_halted (.inl rfl) hu.mem hu.psr hprog rfl rfl
  · exact .of_running hrun hu.mem hu.psr (State.cursorOk_select (s := u) fun op hop => by cases hop; exact hdef) rfl

/-- A step keeps the invariant, phase by phase (43_sequencer.md R180). -/
theorem State.Inv.of_step {s t : State} (hs : s.Inv) (h : step s = .next t) : t.Inv := by
  obtain ⟨hrun, i, u, hi, hexec, ⟨hfault, rfl⟩ | ⟨hurun, w, hadv, rfl⟩⟩ := step_next h
  · obtain ⟨haddr, rfl⟩ := exec_micro_fault (State.fetchMicro_wf hi).1 hexec hrun hfault
    exact (hs.raise haddr).consumeInput
  · have hu := hs.of_exec_micro (State.fetchMicro_wf hi).1 hexec hurun
    exact (hu.of_advance hurun hadv).afterService

end Sys2Proof.Machine
end

