-- ==== Sys2Proof/Proofs/State.lean ====
section
/-! PROOFS. The statements of 10_state.md: the invariant, `inc`, the reserved bits of `psr`, what a step writes, the ROM, and
the reset state. -/

namespace Sys2Proof.Machine

/-- Settles O34, phase by phase. -/
theorem everyStepKeepsTheInvariant : Obligations.EveryStepKeepsTheInvariant :=
  fun _ _ hs h => hs.of_step h

/-- Settles O11: the stored byte is the low byte of the incremented value, which arithmetic reads off. -/
theorem incIncrementsOnWrite : Obligations.IncIncrementsOnWrite := by
  intro s v
  have hinc : (v + 1).toNat = (v.toNat + 1) % 65536 := BitVec.toNat_add v 1
  have hbyte : (v + 1).toNat % 256 = (v.toNat + 1) % 256 := by omega
  simp only [State.read_whole, State.write_reg_self, writtenValue_inc, if_true, reduceCtorEq, if_false]
  refine ⟨hinc, ?_, ?_⟩
  · rw [insertField_low, macroWord_toNat, opByte_toNat, lowByte_toNat, hbyte]
  · rw [insertField_high, macroWord_toNat, lowByte_toNat, lowByte_toNat, hbyte]

/-- Settles O12: the mask is the last part of a write to `psr`, and each instruction keeps the reserved bits. -/
theorem psrReservedBitsStayZero : Obligations.PsrReservedBitsStayZero :=
  ⟨fun s f v => (s.write_reg_self .psr f v).trans (writtenValue_psr f _ v), fun _ _ _ hs h => exec_psrOk hs h⟩

/-- Settles O47: phase 1 writes the named registers, the later phases write none. -/
theorem stepsWriteOnlyTheNamedRegisters : Obligations.StepsWriteOnlyTheNamedRegisters := by
  intro s t i hi h r hr
  obtain ⟨j, u, hj, hexec, hregs, -, -⟩ := step_after_exec h
  cases hi.symm.trans hj
  calc t.reg r = u.reg r := by simp only [State.reg, hregs]
    _ = s.reg r := exec_keepsRegsBut hexec r hr

/-- Settles O48: an instruction, a step and each host action in turn. -/
theorem romIsReadOnly : Obligations.RomIsReadOnly := by
  refine ⟨fun _ _ _ h => exec_rom_cfg h, fun s t h => ?_, fun a s t h => ?_⟩
  · obtain ⟨i, u, -, hexec, -, hrom, hcfg⟩ := step_after_exec h
    obtain ⟨hrom', hcfg'⟩ := exec_rom_cfg hexec
    exact ⟨hrom.trans hrom', hcfg.trans hcfg'⟩
  · cases a with
    | pressKey k => exact next_inj h ▸ ⟨rfl, .inl rfl⟩
    | writeReg r f v => exact (whenApplies_next h).2 ▸ ⟨rfl, .inl rfl⟩
    | writeMem addr v => exact next_inj h ▸ ⟨rfl, .inl rfl⟩
    | supply i => exact next_inj h ▸ ⟨rfl, .inl rfl⟩
    | restart =>
      obtain ⟨hrom, hcfg⟩ := State.restart_rom_cfg h
      exact ⟨hcfg, .inl hrom⟩
    | reset table text => exact ⟨hostAct_reset_cfg h, .inr ⟨table, text, rfl⟩⟩

/-- Settles O36: the machine starts running at `(FETCH, 0)`. -/
theorem resetHasTheInvariant : Obligations.ResetHasTheInvariant :=
  .of_running rfl reset_mem_wf rfl ⟨nofun, .inl rfl⟩ rfl

/-- Settles O38: the registers one by one, the memory as the empty list. -/
theorem resetStateIsAsStated : Obligations.ResetStateIsAsStated := by
  refine ⟨fun r => ?_, fun _ => rfl, rfl, rfl, rfl, rfl, rfl⟩
  cases r <;> rfl

end Sys2Proof.Machine
end

