-- ==== Sys2Proof/Proofs/MemoryFacts.lean ====
section
/-! SUPPORT. Facts the statements of 20_memory.md share: what `norm` gives, what the two memory microinstructions
answer, what a canonical list determines, and what the ROM text loader makes of a line of four hex digits. -/

namespace Sys2Proof

/-! ## The characters of hex digits -/

/-- A digit is read back from its character. -/
theorem hexDigit_hexChar {d : Nat} (hd : d < 16) : hexDigit (hexChar d) = some d := by
  revert d
  decide

/-- No hex digit ends a line, is white space or begins an `org` line (20_memory.md R60). -/
theorem hexChar_plain {d : Nat} (hd : d < 16) :
    hexChar d ≠ '\n' ∧ Machine.isSpace (hexChar d) = false ∧ hexChar d ≠ 'o' ∧ hexChar d ≠ 'O' := by
  revert d
  decide

/-- One digit more: the number so far, times 16, plus the digit. -/
theorem hexAccumulate_hexChar {d : Nat} (hd : d < 16) (acc : Nat) (t : Token) :
    hexAccumulate acc (hexChar d :: t) = hexAccumulate (acc * 16 + d) t := by
  rw [hexAccumulate, hexDigit_hexChar hd]

end Sys2Proof

namespace Sys2Proof.Machine

/-! ## Normalisation -/

/-- `norm` of a natural number is the number mod 65536 (10_state.md R20). -/
theorem normValue_natCast_toNat (n : Nat) : (normValue (.num n)).toNat = n % 65536 := by
  simp [normValue, show ¬ (n : Int) < 0 by omega]

/-- `norm` of a negative number is 0 (10_state.md R20). -/
theorem normValue_of_neg {n : Int} (hn : n < 0) : normValue (.num n) = 0 := by
  simp [normValue, hn]

/-! ## The memory microinstructions -/

/-- `RAM_WR` whose source spec applies answers the store (41_microinstructions.md R134). -/
theorem exec_ramWr {src : RegName} {ss : Spec} (s : State) (h : ss.appliesTo src = true) :
    exec (.ramWr src ss) s = .next (s.memWrite (s.reg .mar).toNat (s.read src ss)) := by
  simp only [exec, execRamWr, h, whenApplies_true]

/-- `RAM_RD` where memory is, with a spec that applies, answers the register write (41_microinstructions.md R133). -/
theorem exec_ramRd_of_lt {d : RegName} {ds : Spec} {s : State} (h : ds.appliesTo d = true)
    (ha : (s.reg .mar).toNat < memWords) :
    exec (.ramRd d ds) s = .next (s.write d ds (s.mem.read (s.reg .mar).toNat)) := by
  simp only [exec, execRamRd, State.memRead, h, ha, if_true, whenApplies_true]

/-! ## The canonical form -/

theorem Memory.read_cons_self (a : Nat) (v : Word) (m : Memory) : Memory.read ((a, v) :: m) a = v :=
  if_pos rfl

theorem Memory.read_cons_of_ne {a x : Nat} (h : a ≠ x) (v : Word) (m : Memory) :
    Memory.read ((a, v) :: m) x = m.read x :=
  if_neg h

/-- The first entry of a canonical list shows in its reads, so a list that reads alike cannot begin above it. -/
theorem Memory.first_le_of_read_eq {lo lo' a a' : Nat} {v v' : Word} {m m' : Memory}
    (hm : Memory.wfFrom lo ((a, v) :: m) = true) (hm' : Memory.wfFrom lo' ((a', v') :: m') = true)
    (h : ∀ x, Memory.read ((a, v) :: m) x = Memory.read ((a', v') :: m') x) : a' ≤ a := by
  obtain ⟨-, -, hv, -⟩ := Memory.wfFrom_cons.1 hm
  obtain ⟨-, ha', hv', htail'⟩ := Memory.wfFrom_cons.1 hm'
  by_contra hlt
  have hfrom : Memory.wfFrom a' ((a', v') :: m') = true := Memory.wfFrom_cons.2 ⟨le_rfl, ha', hv', htail'⟩
  refine hv ?_
  calc v = Memory.read ((a, v) :: m) a := (Memory.read_cons_self a v m).symm
    _ = Memory.read ((a', v') :: m') a := h a
    _ = Memory.unlisted := Memory.read_of_lt (by omega) hfrom

/-- A canonical list that reads as unlisted everywhere is empty. -/
theorem Memory.eq_nil_of_read_unlisted {lo : Nat} {m : Memory} (hm : Memory.wfFrom lo m = true)
    (h : ∀ x, m.read x = Memory.unlisted) : m = [] := by
  cases m with
  | nil => rfl
  | cons e m =>
    obtain ⟨a, v⟩ := e
    obtain ⟨-, -, hv, -⟩ := Memory.wfFrom_cons.1 hm
    exact absurd ((Memory.read_cons_self a v m).symm.trans (h a)) hv

/-- Canonical lists that read alike are the same list (log 1). -/
theorem Memory.eq_of_read_eq {lo lo' : Nat} {m m' : Memory} (hm : Memory.wfFrom lo m = true)
    (hm' : Memory.wfFrom lo' m' = true) (h : ∀ x, m.read x = m'.read x) : m = m' := by
  induction m generalizing lo lo' m' with
  | nil => exact (Memory.eq_nil_of_read_unlisted hm' fun x => (h x).symm).symm
  | cons e m ih =>
    cases m' with
    | nil => exact Memory.eq_nil_of_read_unlisted hm h
    | cons e' m' =>
      obtain ⟨a, v⟩ := e
      obtain ⟨a', v'⟩ := e'
      obtain rfl : a = a' := le_antisymm (Memory.first_le_of_read_eq hm' hm fun x => (h x).symm)
        (Memory.first_le_of_read_eq hm hm' h)
      obtain rfl : v = v' := by simpa only [Memory.read_cons_self] using h a
      obtain ⟨-, -, -, htail⟩ := Memory.wfFrom_cons.1 hm
      obtain ⟨-, -, -, htail'⟩ := Memory.wfFrom_cons.1 hm'
      have htails : ∀ x, Memory.read m x = Memory.read m' x := by
        intro x
        by_cases hx : a = x
        · rw [Memory.read_of_lt (by omega) htail, Memory.read_of_lt (by omega) htail']
        · simpa only [Memory.read_cons_of_ne hx] using h x
      rw [ih htail htail' htails]

/-! ## The lines of a ROM text -/

theorem splitLines_ne_nil (t : Token) : splitLines t ≠ [] := by
  cases t with
  | nil => simp [splitLines]
  | cons c cs =>
    rw [splitLines]
    split
    · split <;> simp
    · simp

/-- A line feed ends a line (log 16). -/
theorem splitLines_lineFeed (t : Token) : splitLines ('\n' :: t) = [] :: splitLines t := by
  obtain ⟨l, ls, h⟩ := List.exists_cons_of_ne_nil (splitLines_ne_nil t)
  simp only [splitLines, h, if_true]

/-- A line without a line feed, ended by one, is the first of the lines. -/
theorem splitLines_append_lineFeed {l : Token} (hl : '\n' ∉ l) (t : Token) :
    splitLines (l ++ '\n' :: t) = l :: splitLines t := by
  induction l with
  | nil => exact splitLines_lineFeed t
  | cons c l ih =>
    obtain ⟨hc, hl⟩ := List.ne_and_not_mem_of_not_mem_cons hl
    simp only [List.cons_append, splitLines, ih hl, Ne.symm hc, if_false]

/-- A line without white space is not trimmed. -/
theorem trimLine_of_no_space {l : Token} (hl : ∀ c ∈ l, isSpace c = false) : trimLine l = l := by
  have hfront : l.dropWhile isSpace = l := List.dropWhile_eq_self_iff.2 fun _ => by simp [hl]
  have hback : l.reverse.dropWhile isSpace = l.reverse := List.dropWhile_eq_self_iff.2 fun _ => by simp [hl]
  rw [trimLine, hfront, hback, List.reverse_reverse]

/-- A data line stores its Word at the cursor, which goes up by 1 (20_memory.md R60). -/
theorem loadLines_data {l : Token} {w : Word} (horg : orgLine (trimLine l) = none)
    (hdata : dataLine (trimLine l) = some w) (cursor : Nat) (m : Memory) (ls : List Token) :
    loadLines cursor m (l :: ls) = loadLines (cursor + 1) (m.write cursor w) ls := by
  simp only [loadLines, horg, hdata]

/-! ## The data line of a Word -/

/-- The line `romTextOf` writes for a Word, without its line feed. -/
def hexLine (w : Word) : Token :=
  [hexChar (w.toNat / 4096), hexChar (w.toNat / 256 % 16), hexChar (w.toNat / 16 % 16), hexChar (w.toNat % 16)]

theorem romTextOf_cons (w : Word) (ws : List Word) : romTextOf (w :: ws) = hexLine w ++ '\n' :: romTextOf ws := rfl

/-- Every character of the line is that of a hex digit. -/
theorem exists_hexChar_of_mem_hexLine {w : Word} {c : Char} (hc : c ∈ hexLine w) : ∃ d < 16, c = hexChar d := by
  have hw := w.isLt
  simp only [hexLine, List.mem_cons, List.not_mem_nil, or_false] at hc
  rcases hc with rfl | rfl | rfl | rfl <;> exact ⟨_, by omega, rfl⟩

theorem lineFeed_not_mem_hexLine (w : Word) : '\n' ∉ hexLine w := by
  intro h
  obtain ⟨d, hd, e⟩ := exists_hexChar_of_mem_hexLine h
  obtain ⟨hfeed, -, -, -⟩ := hexChar_plain hd
  exact hfeed e.symm

theorem trimLine_hexLine (w : Word) : trimLine (hexLine w) = hexLine w := by
  refine trimLine_of_no_space fun c hc => ?_
  obtain ⟨d, hd, rfl⟩ := exists_hexChar_of_mem_hexLine hc
  obtain ⟨-, hspace, -, -⟩ := hexChar_plain hd
  exact hspace

/-- The line of a Word is no `org` line: its first character is a digit. -/
theorem orgLine_hexLine (w : Word) : orgLine (hexLine w) = none := by
  obtain ⟨-, -, ho, hO⟩ := hexChar_plain (d := w.toNat / 4096) (by have := w.isLt; omega)
  simp [hexLine, orgLine, ho, hO]

/-- The number of the four digits of a Word is the Word. -/
theorem hexNumber_hexLine (w : Word) : hexNumber (hexLine w) = some w.toNat := by
  have hw := w.isLt
  have hsum : (((0 * 16 + w.toNat / 4096) * 16 + w.toNat / 256 % 16) * 16 + w.toNat / 16 % 16) * 16 + w.toNat % 16 =
      w.toNat := by omega
  rw [hexNumber, if_neg (by simp [hexLine]), hexLine, hexAccumulate_hexChar (by omega),
    hexAccumulate_hexChar (by omega), hexAccumulate_hexChar (by omega), hexAccumulate_hexChar (by omega),
    hexAccumulate, hsum]

theorem dataLine_hexLine (w : Word) : dataLine (hexLine w) = some w := by
  calc dataLine (hexLine w) = (hexNumber (hexLine w)).map (BitVec.ofNat 16) := rfl
    _ = some w := by rw [hexNumber_hexLine, Option.map_some, BitVec.ofNat_toNat, BitVec.setWidth_eq]

/-- The lines of the text of a list of Words: a line for each, and the empty one after the last line feed. -/
theorem splitLines_romTextOf (ws : List Word) : splitLines (romTextOf ws) = ws.map hexLine ++ [[]] := by
  induction ws with
  | nil => rfl
  | cons w ws ih => rw [romTextOf_cons, splitLines_append_lineFeed (lineFeed_not_mem_hexLine w), ih]; rfl

/-- The lines of a list of Words, loaded from a cursor on, put the Words at the addresses from there on, as far as
memory goes (20_memory.md R60). -/
theorem read_loadLines_hexLines (ws : List Word) (a : Nat) : ∀ (cursor : Nat) {m : Memory}, m.wf = true →
    (loadLines cursor m (ws.map hexLine ++ [[]])).read a =
      if cursor ≤ a ∧ a < memWords then ws.getD (a - cursor) (m.read a) else m.read a := by
  induction ws with
  | nil => intro cursor m _; exact (ite_self _).symm
  | cons w ws ih =>
    intro cursor m hm
    have horg : orgLine (trimLine (hexLine w)) = none := by rw [trimLine_hexLine, orgLine_hexLine]
    have hdata : dataLine (trimLine (hexLine w)) = some w := by rw [trimLine_hexLine, dataLine_hexLine]
    rw [List.map_cons, List.cons_append, loadLines_data horg hdata, ih _ (Memory.write_wf hm _ _), Memory.read_write hm]
    rcases Nat.lt_trichotomy a cursor with hlt | rfl | hgt
    · simp [Nat.not_le.2 hlt, hlt.ne', show ¬ cursor + 1 ≤ a by omega]
    · simp
    · have hsub : a - cursor = a - (cursor + 1) + 1 := by omega
      simp [hgt.ne, hgt.le, hsub, show cursor + 1 ≤ a by omega]

end Sys2Proof.Machine
end

