-- ==== Sys2Proof/Proofs/Memory.lean ====
section
/-! PROOFS. The statements of 20_memory.md: a load after a store, the canonical form of memory, host writes to memory,
and the ROM text. -/

namespace Sys2Proof.Machine

/-- Settles O19: the store leaves `mar` alone, so the load reads the address just written. -/
theorem loadAfterStoreGivesTheWord : Obligations.LoadAfterStoreGivesTheWord := by
  intro s src d ss hmem hss hmar hinc hpsr
  refine ⟨_, _, exec_ramWr s hss, exec_ramRd_of_lt rfl hmar, ?_⟩
  rw [State.write_reg_self, writtenValue_whole hinc hpsr, State.memWrite_reg, State.memWrite_mem,
    Memory.read_write hmem, if_pos ⟨rfl, hmar⟩]

/-- Settles O20, by induction on the two lists. -/
theorem canonicalMemoryIsDeterminedByItsReads : Obligations.CanonicalMemoryIsDeterminedByItsReads :=
  fun _ _ hm hm' h => Memory.eq_of_read_eq hm hm' h

/-- Settles O55: the write is `Memory.write` of the normalised value, and touches nothing but memory. -/
theorem hostMemoryWritesAreNormalised : Obligations.HostMemoryWritesAreNormalised := by
  intro s addr v hmem
  have hread : ∀ a, (s.memWrite addr (normValue v)).mem.read a =
      if addr = a ∧ addr < memWords then normValue v else s.mem.read a := Memory.read_write hmem addr _
  refine ⟨s.memWrite addr (normValue v), rfl, fun hlt => ?_, fun hle a => ?_, fun a ha => ?_, fun _ _ => rfl,
    ⟨rfl, rfl, rfl, rfl⟩, rfl, rfl, rfl, rfl, rfl, rfl⟩
  · rw [hread, if_pos ⟨rfl, hlt⟩]
    refine ⟨fun n hn => hn ▸ normValue_natCast_toNat n, ?_⟩
    rintro (rfl | ⟨n, hn, rfl⟩)
    · rfl
    · exact normValue_of_neg hn
  · rw [State.memWrite_mem, Memory.write_of_le hle]
  · rw [hread, if_neg fun h => ha h.1.symm]

/-- Settles O60: the lines of the text are those of the Words, loaded from address 0 into memory that reads 0. -/
theorem romTextLoadsItsWords : Obligations.RomTextLoadsItsWords := by
  intro ws a
  rw [loadRomText, splitLines_romTextOf, read_loadLines_hexLines ws a 0 rfl]
  have hcleared : Memory.read [] a = 0 := rfl
  simp only [hcleared, memWords, Nat.zero_le, true_and, Nat.sub_zero]

end Sys2Proof.Machine
end

