-- ==== Sys2Proof/Proofs/EncodingFacts.lean ====
section
/-! SUPPORT. Facts the statements of 30_encoding.md share: what a readable spelling reads back, the digits of a literal,
the row that resolves a written tuple, the bytes of a macro word, and what resolved records leave in the table. -/

namespace Sys2Proof

/-! ## Tables of tokens -/

/-- A table without a repeated key answers each of its entries. -/
theorem lookup_eq_some_of_mem {α β : Type} [BEq α] [LawfulBEq α] {l : List (α × β)} {k : α} {v : β}
    (hl : (l.map Prod.fst).Nodup) (h : (k, v) ∈ l) : l.lookup k = some v := by
  obtain ⟨front, back, rfl⟩ := List.append_of_mem h
  refine List.lookup_eq_some_iff.2 ⟨front, back, rfl, fun p hp => bne_iff_ne.2 fun hk => ?_⟩
  rw [List.map_append, List.map_cons] at hl
  exact List.disjoint_of_nodup_append hl (List.mem_map.2 ⟨p, hp, hk.symm⟩) List.mem_cons_self

@[simp] theorem regOf_text (r : RegName) : regOf r.text = some r := by
  cases r <;> rfl

theorem RegName.text_mem_regTokens (r : RegName) : r.text ∈ regTokens.map Prod.fst := by
  cases r <;> decide

/-- A register's name is not empty and no keyword (30_encoding.md R86). -/
theorem RegName.text_ne_keyword (r : RegName) :
    r.text ≠ [] ∧ r.text ≠ kwIb ∧ r.text ≠ kwRam ∧ r.text ≠ kwAlu ∧ r.text ≠ kwPsr := by
  cases r <;> decide

@[simp] theorem expectOf_text (e : Bool) : expectOf (if e then ['1'] else ['0']) = some e := by
  cases e <;> rfl

theorem Spelling.specText_mem (sp : Spelling) (f : Spec) : (sp.specText f, f) ∈ sp.specTokens := by
  cases f <;> simp [specText, specTokens]

theorem Spelling.bitText_mem (sp : Spelling) (bit : PsrBit) : (sp.specText bit.spec, bit) ∈ sp.bitTokens := by
  cases bit <;> simp [specText, bitTokens, PsrBit.spec]

/-- The texts of the bits are among those of the specs, in the same order. -/
theorem Spelling.bitTokens_sublist (sp : Spelling) :
    (sp.bitTokens.map Prod.fst).Sublist (sp.specTokens.map Prod.fst) :=
  have hspecs : [Spec.i, .e, .v, .n, .z, .c].Sublist [.whole, .high, .low, .i, .e, .int, .v, .n, .z, .c] := by decide
  hspecs.map sp.specText

/-! ## A spelling that can be read back -/

/-- What `Spelling.wf` asks, as propositions (log 5). -/
structure Spelling.Readable (sp : Spelling) : Prop where
  lit : sp.lit ∉ [kwIb, kwRam, kwAlu, kwPsr] ++ regTokens.map Prod.fst
  specs : (sp.specTokens.map Prod.fst).Nodup
  ops : (sp.aluTokens.map Prod.fst).Nodup

theorem Spelling.wf_iff_readable {sp : Spelling} : sp.wf = true ↔ sp.Readable := by
  simp only [wf, Bool.and_eq_true, decide_eq_true_eq]
  exact ⟨fun ⟨⟨hlit, hspecs⟩, hops⟩ => ⟨hlit, hspecs, hops⟩, fun ⟨hlit, hspecs, hops⟩ => ⟨⟨hlit, hspecs⟩, hops⟩⟩

section
variable {sp : Spelling} (hsp : sp.Readable)
include hsp

theorem Spelling.Readable.keyword_ne_lit : kwIb ≠ sp.lit ∧ kwRam ≠ sp.lit ∧ kwAlu ≠ sp.lit ∧ kwPsr ≠ sp.lit := by
  have hlit := hsp.lit
  simp only [List.cons_append, List.nil_append, List.mem_cons, not_or] at hlit
  obtain ⟨hib, hram, halu, hpsr, -⟩ := hlit
  exact ⟨Ne.symm hib, Ne.symm hram, Ne.symm halu, Ne.symm hpsr⟩

theorem Spelling.Readable.text_ne_lit (r : RegName) : r.text ≠ sp.lit := fun h =>
  hsp.lit (h ▸ List.mem_append_right _ r.text_mem_regTokens)

theorem Spelling.Readable.specOf_specText (f : Spec) : sp.specOf (sp.specText f) = some f :=
  lookup_eq_some_of_mem hsp.specs (sp.specText_mem f)

theorem Spelling.Readable.bit_lookup (bit : PsrBit) : sp.bitTokens.lookup (sp.specText bit.spec) = some bit :=
  lookup_eq_some_of_mem (hsp.specs.sublist sp.bitTokens_sublist) (sp.bitText_mem bit)

theorem Spelling.Readable.alu_lookup {op : Token} {i : Instr} (h : (op, i) ∈ sp.aluTokens) :
    sp.aluTokens.lookup op = some i :=
  lookup_eq_some_of_mem hsp.ops h

end

/-! ## The digits of a literal -/

/-- The digits written before a text add their number to what is read (30_encoding.md R94). -/
theorem hexAccumulate_hexDigitsBefore {fuel n : Nat} (h : n < fuel) (t : Token) :
    hexAccumulate 0 (hexDigitsBefore fuel n t) = hexAccumulate n t := by
  induction fuel generalizing n t with
  | zero => omega
  | succ fuel ih =>
    rw [hexDigitsBefore]
    split
    next hn => rw [hexAccumulate_hexChar hn, Nat.zero_mul, Nat.zero_add]
    next hn => rw [ih (by omega), hexAccumulate_hexChar (by omega), Nat.div_add_mod']

theorem exists_hexChar_of_mem_hexDigitsBefore {fuel n : Nat} {t : Token} {c : Char}
    (h : c ∈ hexDigitsBefore fuel n t) : (∃ d < 16, c = hexChar d) ∨ c ∈ t := by
  induction fuel generalizing n t with
  | zero => exact .inr h
  | succ fuel ih =>
    rw [hexDigitsBefore] at h
    split at h
    next hn =>
      rcases List.mem_cons.1 h with hc | ht
      · exact .inl ⟨n, hn, hc⟩
      · exact .inr ht
    next =>
      rcases ih h with hc | ht
      · exact .inl hc
      · rcases List.mem_cons.1 ht with hc | ht
        · exact .inl ⟨n % 16, by omega, hc⟩
        · exact .inr ht

theorem hexDigitsBefore_ne_nil (fuel n : Nat) {t : Token} (h : t ≠ []) : hexDigitsBefore fuel n t ≠ [] := by
  induction fuel generalizing n t with
  | zero => exact h
  | succ fuel ih =>
    rw [hexDigitsBefore]
    split
    · exact List.cons_ne_nil _ _
    · exact ih _ (List.cons_ne_nil _ _)

theorem hexText_ne_nil (n : Nat) : hexText n ≠ [] := by
  rw [hexText, hexDigitsBefore]
  split
  · exact List.cons_ne_nil _ _
  · exact hexDigitsBefore_ne_nil _ _ (List.cons_ne_nil _ _)

theorem hexNumber_hexText (n : Nat) : hexNumber (hexText n) = some n := by
  rw [hexNumber, if_neg (hexText_ne_nil n), hexText, hexAccumulate_hexDigitsBefore (Nat.lt_succ_self n)]
  rfl

/-- No hex digit is one of the characters that mark a literal, `$` and the `x` after a `0` (30_encoding.md R94). -/
theorem hexChar_ne_marker {d : Nat} (hd : d < 16) : hexChar d ≠ '$' ∧ hexChar d ≠ 'x' ∧ hexChar d ≠ 'X' := by
  revert d
  decide

/-- A text of hex digits is read as a literal without a mark before it (30_encoding.md R94). -/
theorem hexValue_eq_hexNumber {t : Token} (h : ∀ c ∈ t, ∃ d < 16, c = hexChar d) : hexValue t = hexNumber t := by
  have hplain {c : Char} (hc : c ∈ t) : c ≠ '$' ∧ c ≠ 'x' ∧ c ≠ 'X' := by
    obtain ⟨d, hd, rfl⟩ := h c hc
    exact hexChar_ne_marker hd
  unfold hexValue
  split
  · obtain ⟨hdollar, -, -⟩ := hplain List.mem_cons_self
    exact absurd rfl hdollar
  · obtain ⟨-, hx, -⟩ := hplain (List.mem_cons_of_mem _ List.mem_cons_self)
    exact absurd rfl hx
  · obtain ⟨-, -, hX⟩ := hplain (List.mem_cons_of_mem _ List.mem_cons_self)
    exact absurd rfl hX
  · rfl

/-- A literal is read back from its digits, whatever its size (30_encoding.md R94). -/
theorem hexValue_hexText (n : Nat) : hexValue (hexText n) = some n := by
  have hdigits : ∀ c ∈ hexText n, ∃ d < 16, c = hexChar d := fun c hc =>
    (exists_hexChar_of_mem_hexDigitsBefore hc).resolve_right List.not_mem_nil
  rw [hexValue_eq_hexNumber hdigits, hexNumber_hexText]

/-! ## The row that resolves a written tuple (30_encoding.md R89) -/

section
variable {sp : Spelling} (hsp : sp.Readable)
include hsp

/-- A written destination is read back, whatever is built of it. -/
theorem resolveDst_text (src sspec : Token) (d : RegName) (ds : Spec) (make : RegName → Spec → Instr) :
    resolveDst sp ⟨src, sspec, d.text, sp.specText ds⟩ make = .ok (make d ds) := by
  simp only [resolveDst, regOf_text, hsp.specOf_specText]

theorem resolve_lit (value : Nat) (d : RegName) (ds : Spec) :
    resolve sp ⟨sp.lit, hexText value, d.text, sp.specText ds⟩ = .ok (.lit value d ds) := by
  simp only [resolve, hexText_ne_nil, false_and, and_false, if_false, if_true, resolveLit, hexValue_hexText,
    resolveDst_text hsp]

theorem resolve_litIb (d : RegName) (ds : Spec) :
    resolve sp ⟨kwIb, [], d.text, sp.specText ds⟩ = .ok (.litIb d ds) := by
  obtain ⟨hib, -, -, -⟩ := hsp.keyword_ne_lit
  obtain ⟨hnil, -, -, -, -⟩ := d.text_ne_keyword
  rw [resolve, if_neg (fun ⟨_, _, hdst, _⟩ => hnil hdst), if_neg hib, if_pos rfl, resolveDst_text hsp]

theorem resolve_ramRd (d : RegName) (ds : Spec) :
    resolve sp ⟨kwRam, sp.whole, d.text, sp.specText ds⟩ = .ok (.ramRd d ds) := by
  obtain ⟨-, hram, -, -⟩ := hsp.keyword_ne_lit
  obtain ⟨hnil, -, hdram, -, -⟩ := d.text_ne_keyword
  rw [resolve, if_neg (fun ⟨_, _, hdst, _⟩ => hnil hdst), if_neg hram, if_neg (show kwRam ≠ kwIb by decide), if_pos rfl,
    resolveRamRd, if_neg hdram, if_pos rfl, resolveDst_text hsp]

theorem resolve_ramWr (s : RegName) (ss : Spec) :
    resolve sp ⟨s.text, sp.specText ss, kwRam, sp.whole⟩ = .ok (.ramWr s ss) := by
  obtain ⟨hnil, hib, hram, -, -⟩ := s.text_ne_keyword
  rw [resolve, if_neg (fun ⟨hsrc, _⟩ => hnil hsrc), if_neg (hsp.text_ne_lit s), if_neg hib, if_neg hram, if_pos rfl]
  simp only [resolveRamWr, if_true, regOf_text, hsp.specOf_specText]

theorem resolve_alu {op : Token} {i : Instr} (h : (op, i) ∈ sp.aluTokens) :
    resolve sp ⟨kwAlu, op, [], []⟩ = .ok i := by
  obtain ⟨-, -, halu, -⟩ := hsp.keyword_ne_lit
  rw [resolve, if_neg (fun ⟨hsrc, _⟩ => absurd hsrc (show kwAlu ≠ [] by decide)), if_neg halu,
    if_neg (show kwAlu ≠ kwIb by decide), if_neg (show kwAlu ≠ kwRam by decide), if_neg (show [] ≠ kwRam by decide),
    if_pos rfl]
  simp only [resolveAlu, hsp.alu_lookup h]

theorem resolve_psrTest (bit : PsrBit) (e : Bool) :
    resolve sp ⟨kwPsr, sp.specText bit.spec, if e then ['1'] else ['0'], []⟩ = .ok (.psrTest bit e) := by
  obtain ⟨-, -, -, hpsr⟩ := hsp.keyword_ne_lit
  have hdst : (if e then ['1'] else ['0']) ≠ kwRam := by cases e <;> decide
  rw [resolve, if_neg (fun ⟨hsrc, _⟩ => absurd hsrc (show kwPsr ≠ [] by decide)), if_neg hpsr,
    if_neg (show kwPsr ≠ kwIb by decide), if_neg (show kwPsr ≠ kwRam by decide), if_neg hdst,
    if_neg (show kwPsr ≠ kwAlu by decide), if_pos rfl]
  simp only [resolvePsrTest, hsp.bit_lookup, expectOf_text]

theorem resolve_move (s : RegName) (ss : Spec) (d : RegName) (ds : Spec) :
    resolve sp ⟨s.text, sp.specText ss, d.text, sp.specText ds⟩ = .ok (.move s ss d ds) := by
  obtain ⟨hnil, hib, hram, halu, hpsr⟩ := s.text_ne_keyword
  obtain ⟨-, -, hdram, -, -⟩ := d.text_ne_keyword
  rw [resolve, if_neg (fun ⟨hsrc, _⟩ => hnil hsrc), if_neg (hsp.text_ne_lit s), if_neg hib, if_neg hram, if_neg hdram,
    if_neg halu, if_neg hpsr]
  simp only [resolveMove, regOf_text, hsp.specOf_specText, resolveDst_text hsp]

/-- Each microinstruction is resolved from the tuple it is written as. -/
theorem resolve_encode {haltOp : Byte} {i : Instr} {t : Tuple} (h : encode sp haltOp i = .tuple t) :
    resolve sp t = .ok i := by
  cases i with
  | nopEntry => exact Encoded.tuple.inj h ▸ rfl
  | lit value d ds => exact Encoded.tuple.inj h ▸ resolve_lit hsp value d ds
  | litIb d ds => exact Encoded.tuple.inj h ▸ resolve_litIb hsp d ds
  | ramRd d ds => exact Encoded.tuple.inj h ▸ resolve_ramRd hsp d ds
  | ramWr s ss => exact Encoded.tuple.inj h ▸ resolve_ramWr hsp s ss
  | aluAdd | aluAddc | aluSub | aluShl | aluShr | aluAnd | aluOr | aluNot | aluInc | aluDec | aluSwap =>
    exact Encoded.tuple.inj h ▸ resolve_alu hsp (by simp [Spelling.aluTokens])
  | psrTest bit e => exact Encoded.tuple.inj h ▸ resolve_psrTest hsp bit e
  | move s ss d ds => exact Encoded.tuple.inj h ▸ resolve_move hsp s ss d ds
  | undefined | halt | exec | fetch | interrupt => cases h

end

/-! ## What the decoder of tuples answers -/

theorem decodeTuple_of_resolve {sp : Spelling} {t : Tuple} {i : Instr} (h : resolve sp t = .ok i) :
    decodeTuple sp t = if i.specsApply then .ok i else .error .specApplies := by
  rw [decodeTuple, h]

theorem decodeTuple_ok {sp : Spelling} {t : Tuple} {i : Instr} (h : decodeTuple sp t = .ok i) :
    resolve sp t = .ok i ∧ i.specsApply = true := by
  unfold decodeTuple at h
  split at h
  · cases h
  next j hj =>
    split at h
    next happ => cases h; exact ⟨hj, happ⟩
    next => cases h

theorem Spelling.aluTokens_isMicro (sp : Spelling) : ∀ e ∈ sp.aluTokens, e.2.isMicro = true := by
  simp [aluTokens, Instr.isMicro]

section
variable {sp : Spelling} {t : Tuple} {i : Instr}

theorem resolveDst_isMicro {make : RegName → Spec → Instr} (hmake : ∀ d ds, (make d ds).isMicro = true)
    (h : resolveDst sp t make = .ok i) : i.isMicro = true := by
  unfold resolveDst at h
  split at h
  next d ds _ _ => cases h; exact hmake d ds
  next => cases h

theorem resolveLit_isMicro (h : resolveLit sp t = .ok i) : i.isMicro = true := by
  unfold resolveLit at h
  split at h
  · exact resolveDst_isMicro (fun _ _ => rfl) h
  · cases h

theorem resolveRamRd_isMicro (h : resolveRamRd sp t = .ok i) : i.isMicro = true := by
  unfold resolveRamRd at h
  split at h
  · cases h
  · split at h
    · exact resolveDst_isMicro (fun _ _ => rfl) h
    · cases h

theorem resolveRamWr_isMicro (h : resolveRamWr sp t = .ok i) : i.isMicro = true := by
  unfold resolveRamWr at h
  split at h
  · split at h
    · cases h; rfl
    · cases h
  · cases h

theorem resolveAlu_isMicro (h : resolveAlu sp t = .ok i) : i.isMicro = true := by
  unfold resolveAlu at h
  split at h
  next j hj => cases h; exact sp.aluTokens_isMicro _ (Machine.lookup_mem hj)
  next => cases h

theorem resolvePsrTest_isMicro (h : resolvePsrTest sp t = .ok i) : i.isMicro = true := by
  unfold resolvePsrTest at h
  split at h
  · cases h
  · split at h
    · cases h; rfl
    · cases h

theorem resolveMove_isMicro (h : resolveMove sp t = .ok i) : i.isMicro = true := by
  unfold resolveMove at h
  split at h
  · exact resolveDst_isMicro (fun _ _ => rfl) h
  · cases h

/-- Every row of 30_encoding.md R89 answers a microinstruction. -/
theorem resolve_isMicro (h : resolve sp t = .ok i) : i.isMicro = true := by
  unfold resolve at h
  split at h
  · cases h; rfl
  split at h
  · exact resolveLit_isMicro h
  split at h
  · exact resolveDst_isMicro (fun _ _ => rfl) h
  split at h
  · exact resolveRamRd_isMicro h
  split at h
  · exact resolveRamWr_isMicro h
  split at h
  · exact resolveAlu_isMicro h
  split at h
  · exact resolvePsrTest_isMicro h
  · exact resolveMove_isMicro h

end

/-- The decode classes are of macro words only (30_encoding.md R84). -/
theorem Instr.classOk_of_isMicro {i : Instr} (h : i.isMicro = true) (defined : Byte → Bool) (haltOp : Byte) :
    i.classOk defined haltOp = true := by
  cases i with
  | undefined | halt | exec => cases h
  | _ => rfl

theorem Instr.wf_iff {defined : Byte → Bool} {haltOp : Byte} {i : Instr} :
    i.wf defined haltOp = true ↔ i.specsApply = true ∧ i.classOk defined haltOp = true :=
  Bool.and_eq_true_iff

/-! ## Macro words (30_encoding.md R81, R84) -/

@[simp] theorem opByte_macroWord (op d8 : Byte) : opByte (macroWord op d8) = op := by
  apply BitVec.eq_of_toNat_eq
  rw [Machine.opByte_toNat, Machine.macroWord_toNat]
  have := d8.isLt
  omega

@[simp] theorem lowByte_macroWord (op d8 : Byte) : lowByte (macroWord op d8) = d8 := by
  apply BitVec.eq_of_toNat_eq
  rw [Machine.lowByte_toNat, Machine.macroWord_toNat]
  have := d8.isLt
  omega

@[simp] theorem macroWord_opByte_lowByte (w : Word) : macroWord (opByte w) (lowByte w) = w := by
  apply BitVec.eq_of_toNat_eq
  rw [Machine.macroWord_toNat, Machine.opByte_toNat, Machine.lowByte_toNat]
  omega

theorem decodeMacro_undefined (haltOp : Byte) (w : Word) :
    decodeMacro false haltOp w = .undefined (opByte w) (lowByte w) := rfl

theorem decodeMacro_halt {haltOp : Byte} {w : Word} (h : opByte w = haltOp) :
    decodeMacro true haltOp w = .halt (lowByte w) := by
  rw [decodeMacro, if_neg (by decide), if_pos h]

theorem decodeMacro_exec {haltOp : Byte} {w : Word} (h : opByte w ≠ haltOp) :
    decodeMacro true haltOp w = .exec (opByte w) (lowByte w) := by
  rw [decodeMacro, if_neg (by decide), if_neg h]

/-- A decode class of the table is read back from the macro word it is written as. -/
theorem decodeMacro_encode {sp : Spelling} {defined : Byte → Bool} {haltOp : Byte} {i : Instr} {w : Word}
    (hclass : i.classOk defined haltOp = true) (h : encode sp haltOp i = .word w) :
    decodeMacro (defined (opByte w)) haltOp w = i := by
  cases i with
  | undefined op d8 =>
    obtain rfl := Encoded.word.inj h
    have hundef : defined op = false := by simpa [Instr.classOk] using hclass
    rw [opByte_macroWord, hundef, decodeMacro_undefined, opByte_macroWord, lowByte_macroWord]
  | halt d8 =>
    obtain rfl := Encoded.word.inj h
    have hdef : defined haltOp = true := hclass
    rw [opByte_macroWord, hdef, decodeMacro_halt (opByte_macroWord haltOp d8), lowByte_macroWord]
  | exec op d8 =>
    obtain rfl := Encoded.word.inj h
    obtain ⟨hdef, hne⟩ : defined op = true ∧ op ≠ haltOp := by simpa [Instr.classOk] using hclass
    rw [opByte_macroWord, hdef, decodeMacro_exec (by rwa [opByte_macroWord]), opByte_macroWord, lowByte_macroWord]
  | _ => cases h

/-- The class of a macro word is of the table, and the word is written from it. -/
theorem encode_decodeMacro (sp : Spelling) (defined : Byte → Bool) (haltOp : Byte) (w : Word) :
    encode sp haltOp (decodeMacro (defined (opByte w)) haltOp w) = .word w ∧
      (decodeMacro (defined (opByte w)) haltOp w).wf defined haltOp = true := by
  cases hd : defined (opByte w) with
  | false => simp [decodeMacro_undefined, encode, Instr.wf, Instr.specsApply, Instr.classOk, hd]
  | true =>
    by_cases hh : opByte w = haltOp
    · subst hh
      simp [decodeMacro_halt, encode, Instr.wf, Instr.specsApply, Instr.classOk, hd]
    · simp [decodeMacro_exec, encode, Instr.wf, Instr.specsApply, Instr.classOk, hd, hh]

end Sys2Proof

namespace Sys2Proof.Machine

/-! ## The meanings and a spec that does not apply (30_encoding.md R97, log 14) -/

@[simp] theorem whenApplies_false (s : State) : whenApplies false s = .refused .specNotApplicable := rfl

/-! ## The resolved records -/

/-- What the records leave in the table (30_encoding.md R91): the keys in their order, the decoded program of each
well-keyed record and nothing else, and the records with a malformed key (log 21). -/
structure Rom.Resolves (sp : Spelling) (rs : List Record) (rom : Rom) : Prop where
  keys : rom.entries.map Prod.fst = rs.filterMap fun r => parseKey r.key
  decoded : ∀ r ∈ rs, ∀ k, parseKey r.key = some k → ∃ P, decodeProgram sp r.program = .ok P ∧ (k, P) ∈ rom.entries
  recorded : ∀ k P, (k, P) ∈ rom.entries → ∃ r ∈ rs, parseKey r.key = some k ∧ decodeProgram sp r.program = .ok P
  literal : ∀ r ∈ rs, parseKey r.key = none → r ∈ rom.literal

theorem Rom.Resolves.nil (sp : Spelling) : Rom.Resolves sp [] { entries := [], literal := [] } :=
  ⟨rfl, nofun, nofun, nofun⟩

/-- A record with a malformed key is kept before the others. -/
theorem Rom.Resolves.malformed {sp : Spelling} {r : Record} {rs : List Record} {rom : Rom}
    (h : Rom.Resolves sp rs rom) (hk : parseKey r.key = none) :
    Rom.Resolves sp (r :: rs) { rom with literal := r :: rom.literal } where
  keys := by simp only [List.filterMap_cons, hk, h.keys]
  decoded q hq k hq' := by
    rcases List.mem_cons.1 hq with rfl | hq
    · cases hk.symm.trans hq'
    · exact h.decoded q hq k hq'
  recorded k P hP := by
    obtain ⟨q, hq, hrest⟩ := h.recorded k P hP
    exact ⟨q, List.mem_cons_of_mem _ hq, hrest⟩
  literal q hq hq' := by
    rcases List.mem_cons.1 hq with rfl | hq
    · exact List.mem_cons_self
    · exact List.mem_cons_of_mem _ (h.literal q hq hq')

/-- The program of a well-keyed record is entered before the others. -/
theorem Rom.Resolves.keyed {sp : Spelling} {r : Record} {rs : List Record} {rom : Rom} {k : ProgKey} {P : Program}
    (h : Rom.Resolves sp rs rom) (hk : parseKey r.key = some k) (hP : decodeProgram sp r.program = .ok P) :
    Rom.Resolves sp (r :: rs) { rom with entries := (k, P) :: rom.entries } where
  keys := by simp only [List.map_cons, List.filterMap_cons, hk, h.keys]
  decoded q hq k' hq' := by
    rcases List.mem_cons.1 hq with rfl | hq
    · cases hk.symm.trans hq'
      exact ⟨P, hP, List.mem_cons_self⟩
    · obtain ⟨Q, hQ, hmem⟩ := h.decoded q hq k' hq'
      exact ⟨Q, hQ, List.mem_cons_of_mem _ hmem⟩
  recorded k' Q hQ := by
    rcases List.mem_cons.1 hQ with he | hQ
    · cases he
      exact ⟨r, List.mem_cons_self, hk, hP⟩
    · obtain ⟨q, hq, hrest⟩ := h.recorded k' Q hQ
      exact ⟨q, List.mem_cons_of_mem _ hq, hrest⟩
  literal q hq hq' := by
    rcases List.mem_cons.1 hq with rfl | hq
    · cases hk.symm.trans hq'
    · exact h.literal q hq hq'

theorem loadRecords_resolves {sp : Spelling} {rs : List Record} {rom : Rom} (h : loadRecords sp rs = .ok rom) :
    Rom.Resolves sp rs rom := by
  induction rs generalizing rom with
  | nil => cases h; exact .nil sp
  | cons r rs ih =>
    rw [loadRecords] at h
    split at h
    next hk =>
      split at h
      next rest hrest => cases h; exact (ih hrest).malformed hk
      next => cases h
    next k hk =>
      split at h
      · cases h
      next P hP =>
        split at h
        next rest hrest => cases h; exact (ih hrest).keyed hk hP
        next => cases h

/-- A table that loads holds the resolved records and passes every check (30_encoding.md R96). -/
theorem loadTable_ok {sp : Spelling} {rs : List Record} {rom : Rom} (h : loadTable sp rs = .ok rom) :
    Rom.Resolves sp rs rom ∧ rom.Admitted := by
  unfold loadTable at h
  split at h
  · cases h
  next rom' hrom =>
    split at h
    · cases h
    next hcheck => cases h; exact ⟨loadRecords_resolves hrom, Rom.admitted_of_check hcheck⟩

/-- Each program of an admitted table passes the checks on programs (30_encoding.md R96). -/
theorem Rom.Admitted.program_wf {r : Rom} (h : r.Admitted) {k : ProgKey} {P : Program} (hP : r.program k = some P) :
    Program.wf P = true := by
  have hmem := Rom.program_mem hP
  simp only [Program.wf, Bool.and_eq_true, List.all_eq_true]
  exact ⟨⟨h.micro _ hmem, h.applies _ hmem⟩, h.nop _ hmem⟩

end Sys2Proof.Machine
end

