-- ==== Sys2Proof/Proofs/Encoding.lean ====
section
/-! PROOFS. The statements of 30_encoding.md: the decoder and the encoder, which spec applies where, and what an
admitted opcode table holds. -/

namespace Sys2Proof.Machine

/-- Settles O1, by what the instruction is written as: a tuple is resolved by the row it was written for, a macro word
by its bytes, a reserved key by its text. -/
theorem decodeOfEncodeIsTheInstruction : Obligations.DecodeOfEncodeIsTheInstruction := by
  intro sp isDefined haltOp i hsp hi
  obtain ⟨happ, hclass⟩ := Instr.wf_iff.1 hi
  cases he : encode sp haltOp i with
  | tuple t =>
    have hres : resolve sp t = .ok i := resolve_encode (Spelling.wf_iff_readable.1 hsp) he
    simp only [decode, decodeTuple_of_resolve hres, happ, if_true]
  | word w => rw [decode, decodeMacro_encode hclass he]
  | key k =>
    cases i with
    | fetch => cases he; rfl
    | interrupt => cases he; rfl
    | _ => cases he

/-- Settles O3: a tuple is decoded to a microinstruction with specs that apply, a macro word to a class of the table. -/
theorem decoderAnswersWellFormedOnly : Obligations.DecoderAnswersWellFormedOnly := by
  intro sp isDefined haltOp e i h
  cases e with
  | tuple t =>
    simp only [decode] at h
    split at h
    next j hj =>
      cases h
      obtain ⟨hres, happ⟩ := decodeTuple_ok hj
      exact Instr.wf_iff.2 ⟨happ, Instr.classOk_of_isMicro (resolve_isMicro hres) _ _⟩
    next => cases h
  | word w =>
    cases h
    exact (encode_decodeMacro sp isDefined haltOp w).2
  | key k =>
    simp only [decode] at h
    split at h
    · cases h; rfl
    · split at h
      · cases h; rfl
      · cases h

/-- Settles O5: the spec check of the decoder comes after the resolution of the move, and each meaning is guarded by the
specs it names. -/
theorem specsApplyAsStated : Obligations.SpecsApplyAsStated := by
  refine ⟨fun f r => ?_, fun sp src d ss ds hsp hbad => ?_, fun s r f hbad => ?_⟩
  · cases f <;> simp [Spec.appliesTo, Spec.isPsrField]
  · have happ : (ss.appliesTo src && ds.appliesTo d) = false := Bool.and_eq_false_iff.2 hbad
    have hres := resolve_move (Spelling.wf_iff_readable.1 hsp) src ss d ds
    refine ⟨?_, fun s => ?_⟩
    · simp only [decodeTuple_of_resolve hres, Instr.specsApply, happ, Bool.false_eq_true, if_false]
    · simp only [exec, execMove, happ, whenApplies_false]
  · refine ⟨fun value => ?_, ?_, ?_, ?_⟩
    · simp only [exec, execLit, hbad, whenApplies_false]
    · simp only [exec, execLitIb, hbad, whenApplies_false]
    · simp only [exec, execRamRd, hbad, whenApplies_false]
    · simp only [exec, execRamWr, hbad, whenApplies_false]

/-- Settles O58: the entries are those of the records, and no key is repeated, so looking up a key finds its record's
program. -/
theorem loadedTableHoldsTheRecords : Obligations.LoadedTableHoldsTheRecords := by
  intro sp rs rom h
  obtain ⟨hres, hadm⟩ := loadTable_ok h
  refine ⟨fun r hr k hk => ?_, fun k P hP => hres.recorded k P (Rom.program_mem hP), hres.literal⟩
  obtain ⟨P, hP, hmem⟩ := hres.decoded r hr k hk
  exact ⟨P, hP, lookup_eq_some_of_mem hadm.unique hmem⟩

/-- Settles O59: the checks of the table, its keys being those of the records. -/
theorem admittedTablesPassTheChecks : Obligations.AdmittedTablesPassTheChecks := by
  intro sp rs rom h
  obtain ⟨hres, hadm⟩ := loadTable_ok h
  exact ⟨hadm.fetch, hadm.interrupt, hres.keys ▸ hadm.unique, fun _ _ hP => hadm.program_wf hP⟩

/-- Settles O2, class by class. -/
theorem macroWordIsWrittenBack : Obligations.MacroWordIsWrittenBack :=
  encode_decodeMacro

/-- Settles O4: the decoder run on the five tuples and the word. -/
theorem writtenTuplesDecode : Obligations.WrittenTuplesDecode :=
  ⟨rfl, rfl, rfl, rfl, rfl, rfl⟩

end Sys2Proof.Machine
end

