-- ==== Sys2Proof/Proofs/OperandsFacts.lean ====
section
/-! SUPPORT. Facts the statements of 40_operand_addressing.md share: the fields of `psr` among the bits, the bits and the
number a read gives, the bits a field write leaves, and the frame of a register write. -/

namespace Sys2Proof

/-- A field of `psr` applies to `psr` and to no other register (30_encoding.md R97). -/
theorem Spec.appliesTo_iff_of_isPsrField {f : Spec} (hf : f.isPsrField = true) (r : RegName) :
    f.appliesTo r = true ↔ r = .psr := by
  simp [Spec.appliesTo, hf]

end Sys2Proof

namespace Sys2Proof.Machine

/-! ## The fields of `psr` among the bits -/

theorem ne_whole_of_isPsrField {f : Spec} (hf : f.isPsrField = true) : f ≠ .whole := by
  rintro rfl
  cases hf

/-- No bit of a `psr` field is reserved (10_state.md R29). -/
theorem getLsbD_psrMask_field {f : Spec} (hf : f.isPsrField = true) {k : Nat} (hk : k < fieldWidth f) :
    psrMask.getLsbD (fieldShift f + k) = true := by
  revert k
  cases f with
  | whole | high | low => cases hf
  | _ => decide

/-- The fields of `psr` do not overlap (10_state.md R29). -/
theorem getLsbD_fieldMask_other_field {f g : Spec} (hf : f.isPsrField = true) (hg : g.isPsrField = true) (hne : g ≠ f)
    {k : Nat} (hk : k < fieldWidth g) : (fieldMask f).getLsbD (fieldShift g + k) = false := by
  revert hne k
  cases f with
  | whole | high | low => cases hf
  | _ =>
    cases g with
    | whole | high | low => cases hg
    | _ => decide

/-! ## Reads -/

/-- A read under a field spec extracts the field (40_operand_addressing.md R112). -/
theorem State.read_field (s : State) (r : RegName) {f : Spec} (hf : f ≠ .whole) :
    s.read r f = extractField f (s.reg r) := if_neg hf

/-- The bits of an extracted field: right-aligned, zero above its width (40_operand_addressing.md R112). -/
theorem getLsbD_extractField (f : Spec) (x : Word) (k : Nat) :
    (extractField f x).getLsbD k = (x.getLsbD (fieldShift f + k) && decide (k < fieldWidth f)) := by
  rw [extractField, BitVec.getLsbD_and, BitVec.getLsbD_ushiftRight, getLsbD_fieldOnes]

theorem fieldOnes_toNat (f : Spec) : (fieldOnes f).toNat = 2 ^ fieldWidth f - 1 := by
  cases f <;> rfl

/-- The number of an extracted field: the bits below it divided away, those above it cut off. -/
theorem extractField_toNat (f : Spec) (x : Word) :
    (extractField f x).toNat = x.toNat / 2 ^ fieldShift f % 2 ^ fieldWidth f := by
  rw [extractField, BitVec.toNat_and, fieldOnes_toNat, Nat.and_two_pow_sub_one_eq_mod, BitVec.toNat_ushiftRight,
    Nat.shiftRight_eq_div_pow]

theorem State.read_field_toNat (s : State) (r : RegName) {f : Spec} (hf : f ≠ .whole) :
    (s.read r f).toNat = (s.reg r).toNat / 2 ^ fieldShift f % 2 ^ fieldWidth f := by
  rw [s.read_field r hf, extractField_toNat]

/-- The high byte of a Word is its number divided by 256, which is below 256 already. -/
theorem State.read_high_toNat (s : State) (r : RegName) : (s.read r .high).toNat = (s.reg r).toNat / 256 := by
  have hlt : (s.reg r).toNat / 256 < 256 := by omega
  rw [s.read_field_toNat r (by decide)]
  exact Nat.mod_eq_of_lt hlt

/-! ## Writes -/

/-- The bits of a register after a field write: those of the field come from the value, incremented for `inc`, the others
from the old Word; the reserved bits of `psr` are cleared (40_operand_addressing.md R113 to R116). -/
theorem getLsbD_writtenValue_field (r : RegName) {f : Spec} (hf : f ≠ .whole) (old v : Word) {i : Nat} (hi : i < 16) :
    (writtenValue r f old v).getLsbD i =
      ((if (fieldMask f).getLsbD i then (if r = .inc then v + 1 else v).getLsbD (i - fieldShift f) else old.getLsbD i) &&
        (decide (r ≠ .psr) || psrMask.getLsbD i)) := by
  by_cases hr : r = .psr
  · simp only [writtenValue, hf, hr, if_false, if_true, BitVec.getLsbD_and, getLsbD_insertField _ _ _ hi, ne_eq,
      not_true_eq_false, decide_false, Bool.false_or]
  · simp only [writtenValue, hf, hr, if_false, getLsbD_insertField _ _ _ hi, ne_eq, not_false_eq_true, decide_true,
      Bool.true_or, Bool.and_true]

/-- A write under a field spec, applicable or not, leaves what 40_operand_addressing.md R113 to R117 say. -/
theorem State.fieldWritten_write (s : State) (r : RegName) {f : Spec} (hf : f ≠ .whole) (v : Word) :
    s.FieldWritten (s.write r f v) r f v := by
  refine ⟨fun k hk => ?inside, fun k hk hmask hpsr => ?outside, ?reserved, s.keepsRegsBut_write r f v⟩
  case inside =>
    obtain ⟨hmask, hlt⟩ := getLsbD_fieldMask f hk
    rw [State.write_reg_self, getLsbD_writtenValue_field r hf _ _ hlt, if_pos hmask, Nat.add_sub_cancel_left]
  case outside =>
    have hkept : (decide (r ≠ .psr) || psrMask.getLsbD k) = true := by simpa using hpsr
    rw [State.write_reg_self, getLsbD_writtenValue_field r hf _ _ hk, hkept, hmask, if_neg Bool.false_ne_true,
      Bool.and_true]
  case reserved =>
    rintro rfl
    rw [State.psrOk, State.write_reg_self]
    exact writtenValue_psr_masked f _ v

/-- A value that fits a `psr` field is read back (40_operand_addressing.md R118): it has no bit beyond the width. -/
theorem State.FieldWritten.read_psr_self {s t : State} {f : Spec} {v : Word} (hw : s.FieldWritten t .psr f v)
    (hf : f.isPsrField = true) (hv : v.toNat < 2 ^ fieldWidth f) : t.read .psr f = v := by
  obtain ⟨hinside, -, -, -⟩ := hw
  rw [t.read_field .psr (ne_whole_of_isPsrField hf)]
  apply BitVec.eq_of_getLsbD_eq
  intro k _
  rw [getLsbD_extractField]
  by_cases hk : k < fieldWidth f
  · simp [hinside k hk, getLsbD_psrMask_field hf hk, hk]
  · have hzero : v.getLsbD k = false :=
      Nat.testBit_lt_two_pow (hv.trans_le (Nat.pow_le_pow_right (by decide) (Nat.le_of_not_lt hk)))
    simp [hk, hzero]

/-- A write of one `psr` field leaves the others as they read before (40_operand_addressing.md R118): they lie outside its
mask and hold no reserved bit. -/
theorem State.FieldWritten.read_psr_other {s t : State} {f g : Spec} {v : Word} (hw : s.FieldWritten t .psr f v)
    (hf : f.isPsrField = true) (hg : g.isPsrField = true) (hne : g ≠ f) : t.read .psr g = s.read .psr g := by
  obtain ⟨-, houtside, -, -⟩ := hw
  have hgw := ne_whole_of_isPsrField hg
  rw [t.read_field .psr hgw, s.read_field .psr hgw]
  apply BitVec.eq_of_getLsbD_eq
  intro k _
  rw [getLsbD_extractField, getLsbD_extractField]
  by_cases hk : k < fieldWidth g
  · rw [houtside (fieldShift g + k) (getLsbD_fieldMask g hk).2 (getLsbD_fieldMask_other_field hf hg hne hk)
      (.inr (getLsbD_psrMask_field hg hk))]
  · simp [hk]

/-- A register write changes that register alone (40_operand_addressing.md R113). -/
theorem State.write_frame (s : State) (r : RegName) (f : Spec) (v : Word) :
    s.KeepsRegsBut (s.write r f v) [r] ∧ s.KeepsMem (s.write r f v) ∧ s.KeepsControl (s.write r f v) ∧
      s.KeepsHost (s.write r f v) :=
  ⟨s.keepsRegsBut_write r f v, fun _ => rfl, ⟨rfl, rfl, rfl, rfl⟩, rfl, rfl, rfl, rfl, rfl, rfl⟩

/-- `MOVE` whose two specs apply answers the write of what the source read (41_microinstructions.md R135). -/
theorem exec_move {src d : RegName} {ss ds : Spec} (s : State) (hs : ss.appliesTo src = true)
    (hd : ds.appliesTo d = true) : exec (.move src ss d ds) s = .next (s.write d ds (s.read src ss)) := by
  simp only [exec, execMove, hs, hd, Bool.and_self, whenApplies_true]

end Sys2Proof.Machine
end

