-- ==== Sys2Proof/Proofs/Operands.lean ====
section
/-! PROOFS. The statements of 40_operand_addressing.md: what reads give, what field writes leave, the fields of `psr`,
moves within one register, and the field table. -/

namespace Sys2Proof.Machine

/-- Settles O7: each read is a quotient and a remainder by the powers of 2 of its field. -/
theorem readsAreZeroExtended : Obligations.ReadsAreZeroExtended := by
  intro s
  refine ⟨fun r => ⟨s.read_whole r, s.read_high_toNat r, ?low⟩, ?i, ?e, ?int, ?v, ?n, ?z, ?c⟩
  all_goals simp [State.read_field_toNat, fieldShift, fieldWidth]

/-- Settles O8: the bits of the written Word, inside the field and outside it. -/
theorem fieldWritesAreIsolated : Obligations.FieldWritesAreIsolated :=
  fun s r _ v hf _ => s.fieldWritten_write r hf v

/-- Settles O9: the seven fields are disjoint and hold no reserved bit. -/
theorem psrFieldsRoundTrip : Obligations.PsrFieldsRoundTrip := by
  intro s f v hf hv
  have hfield : ∀ g ∈ [Spec.v, .n, .z, .c, .int, .i, .e], g.isPsrField = true := by decide
  have hw := s.fieldWritten_write .psr (ne_whole_of_isPsrField (hfield f hf)) v
  exact ⟨hw.read_psr_self (hfield f hf) hv, fun g hg hne => hw.read_psr_other (hfield f hf) (hfield g hg) hne⟩

/-- Settles O15: the source is read from the old register, whose high byte the write of the low byte keeps. -/
theorem movesWithinOneRegister : Obligations.MovesWithinOneRegister := by
  intro s
  refine ⟨fun r hinc hpsr => ⟨_, exec_move s rfl rfl, ?_, s.write_frame r .low _⟩,
    ⟨_, exec_move s rfl rfl, ?_, s.write_frame .inc .whole _⟩⟩
  · have hold := (s.reg r).isLt
    have hwritten : ∀ v, writtenValue r .low (s.reg r) v = macroWord (opByte (s.reg r)) (lowByte v) := fun v => by
      simp only [writtenValue, hinc, hpsr, if_false, reduceCtorEq, insertField_low]
    rw [State.write_reg_self, hwritten, macroWord_toNat, opByte_toNat, lowByte_toNat, s.read_high_toNat]
    omega
  · rw [State.write_reg_self, writtenValue_inc, if_pos rfl, State.read_whole]
    exact BitVec.toNat_add _ 1

/-- Settles O6: the table by evaluation, the applicability spec by spec. -/
theorem fieldTableIsAsStated : Obligations.FieldTableIsAsStated := by
  have hfield : ∀ f ∈ [Spec.i, .e, .int, .v, .n, .z, .c], f.isPsrField = true := by decide
  exact ⟨rfl, fun r => ⟨rfl, rfl⟩, fun f r hf => Spec.appliesTo_iff_of_isPsrField (hfield f hf) r⟩

end Sys2Proof.Machine
end

