-- ==== Sys2Proof/Proofs/MicroinstructionsFacts.lean ====
section
/-! SUPPORT. Facts the statements of 41_microinstructions.md share: what the data transfers and `PSR_TEST` answer, the
device cells as addresses, and what phases 2 to 5 leave of a state whose program ends. -/

namespace Sys2Proof.Machine

/-! ## The answers of the microinstructions -/

/-- The literal is reduced mod 65536 on its way to the write path (41_microinstructions.md R131). -/
theorem normNat_eq_ofNat_mod (n : Nat) : normNat n = BitVec.ofNat 16 (n % 65536) :=
  BitVec.eq_of_toNat_eq (by simp [normNat])

/-- `LIT` whose spec applies answers the write of the literal (41_microinstructions.md R131). -/
theorem exec_lit {d : RegName} {ds : Spec} (value : Nat) (s : State) (h : ds.appliesTo d = true) :
    exec (.lit value d ds) s = .next (s.write d ds (BitVec.ofNat 16 (value % 65536))) := by
  simp only [exec, execLit, h, whenApplies_true, normNat_eq_ofNat_mod]

/-- `LIT_IB` whose spec applies answers the write of `IB_VALUE` (41_microinstructions.md R132). -/
theorem exec_litIb {d : RegName} {ds : Spec} (s : State) (h : ds.appliesTo d = true) :
    exec (.litIb d ds) s = .next (s.write d ds s.cfg.ibValue) := by
  simp only [exec, execLitIb, h, whenApplies_true]

/-- `RAM_RD` where no memory is, with a spec that applies, answers the fault (41_microinstructions.md R133,
60_exceptions.md R203). -/
theorem exec_ramRd_of_le {d : RegName} {ds : Spec} {s : State} (h : ds.appliesTo d = true)
    (ha : memWords ≤ (s.reg .mar).toNat) :
    exec (.ramRd d ds) s = .next (s.raise (.memReadOutOfRange (s.reg .mar))) := by
  simp only [exec, execRamRd, State.memRead, h, Nat.not_lt.2 ha, if_false, whenApplies_true]

/-- `PSR_TEST` answers the outcome of the comparison in `early` (41_microinstructions.md R137). -/
theorem exec_psrTest (bit : PsrBit) (e : Bool) (s : State) :
    exec (.psrTest bit e) s = .next { s with early := s.read .psr bit.spec != bitWord e } := rfl

/-- The comparison of a `?psr` test, on the numbers. -/
theorem bne_bitWord_iff (w : Word) (e : Bool) : (w != bitWord e) = true ↔ w.toNat ≠ e.toNat := by
  have he : (bitWord e).toNat = e.toNat := by cases e <;> rfl
  rw [bne_iff_ne, ← BitVec.toNat_ne_iff_ne, he]

/-- An instruction that answers a register write leaves the written value in the destination and everything else alone
(40_operand_addressing.md R113). -/
theorem written_of_exec {i : Instr} {s : State} {d : RegName} {f : Spec} {v : Word}
    (h : exec i s = .next (s.write d f v)) :
    ∃ t, exec i s = .next t ∧ t.reg d = writtenValue d f (s.reg d) v ∧
      s.KeepsRegsBut t [d] ∧ s.KeepsMem t ∧ s.KeepsControl t ∧ s.KeepsHost t :=
  ⟨_, h, s.write_reg_self d f v, s.write_frame d f v⟩

/-! ## The end of a program -/

/-- The two ranges of device cells hold the listed addresses (20_memory.md R55). -/
theorem isDeviceCell_iff {a : Nat} : isDeviceCell a ↔ a ∈ deviceCells := by
  simp only [isDeviceCell, inputData, outputStatus, clockBase, timerCell, deviceCells, List.mem_cons, List.not_mem_nil,
    or_false]
  omega

/-- `early` sends the index to the program's length, whatever entries follow (43_sequencer.md R182). -/
theorem State.programEnds_of_early {s : State} (h : s.early = true) : s.programEnds = true := by
  simp [State.programEnds, State.nextIndex, h]

/-- The end of a program leaves the cursor at the start of one, which is Fetch after any program but Fetch
(43_sequencer.md R182, R183). -/
theorem State.advance_of_programEnds {s : State} (h : s.programEnds = true) :
    ∃ w, s.advance = .next w ∧ w.uidx = 0 ∧ (s.prog ≠ .fetch → w.prog = .fetch) := by
  rcases s.advance_cases with ⟨hend, -⟩ | ⟨-, -, hw⟩ | ⟨-, hprog, -, hw⟩ | ⟨-, hprog, -, -, hw⟩ | ⟨-, hprog, -, -, hw⟩
  · exact absurd h (Bool.eq_false_iff.1 hend)
  · exact ⟨_, hw, rfl, fun _ => rfl⟩
  all_goals exact ⟨_, hw, rfl, fun hne => absurd hprog hne⟩

/-- Phases 4 and 5 leave every Word outside the device cells as it was (60_exceptions.md R210). -/
theorem State.afterService_read {w : State} (hw : w.mem.wf = true) {a : Nat} (ha : a ∉ deviceCells) :
    w.afterService.mem.read a = w.mem.read a := by
  obtain ⟨hmem, -, -⟩ := w.afterService_served
  rw [hmem]
  exact (State.sameButDevices_service { w with early := false }).read hw a (mt isDeviceCell_iff.1 ha)

/-- Phases 4 and 5 keep the cursor of a program just begun, or put the Interrupt program in its place
(60_exceptions.md R211). -/
theorem State.afterService_start {w : State} (hw : w.uidx = 0) :
    w.afterService.uidx = 0 ∧ (w.afterService.prog = w.prog ∨ w.afterService.prog = .interrupt) := by
  rcases w.afterService_cursor with ⟨hprog, huidx⟩ | ⟨-, -, huidx, hprog, -, -⟩
  · exact ⟨huidx.trans hw, .inl hprog⟩
  · exact ⟨huidx, .inr hprog⟩

end Sys2Proof.Machine
end

