-- ==== Sys2Proof/Proofs/Microinstructions.lean ====
section
/-! PROOFS. The statements of 41_microinstructions.md: the literals, moves, memory reads and writes, and the `?psr` test
with the end of the program that a failed one brings. -/

namespace Sys2Proof.Machine

/-- Settles O18: the store is `Memory.write` at `mar`, and touches nothing but memory. -/
theorem ramWriteStoresAtMar : Obligations.RamWriteStoresAtMar := by
  intro s src ss hmem hss
  refine ⟨_, exec_ramWr s hss, ?_, fun _ _ => rfl, ⟨rfl, rfl, rfl, rfl⟩, rfl, rfl, rfl, rfl, rfl, rfl⟩
  rintro a rfl
  have hread := Memory.read_write hmem (s.reg .mar).toNat (s.read src ss)
  refine ⟨fun hlt => ?below, fun hle b => ?dropped, fun b hb => ?elsewhere⟩
  case below => rw [State.memWrite_mem, hread, if_pos ⟨rfl, hlt⟩]
  case dropped => rw [State.memWrite_mem, Memory.write_of_le hle]
  case elsewhere => rw [State.memWrite_mem, hread, if_neg fun h => hb h.1.symm]

/-- Settles O41: the failed test sets `early`, so the program ends in phase 2, and the phases after it write no register
and no ordinary memory. -/
theorem failedTestEndsTheProgram : Obligations.FailedTestEndsTheProgram := by
  intro s bit e hmem hrun hfetch hne
  have hends : State.programEnds { s with early := s.read .psr bit.spec != bitWord e } = true :=
    State.programEnds_of_early ((bne_bitWord_iff _ e).2 hne)
  obtain ⟨w, hadv, huidx, hprog⟩ := State.advance_of_programEnds hends
  obtain ⟨hregs, hwmem, -⟩ := State.advance_same hadv
  obtain ⟨hregs', -⟩ := w.afterService_same
  obtain ⟨huidx', hprog'⟩ := State.afterService_start huidx
  refine ⟨_, step_of_exec hrun hfetch (exec_psrTest bit e s) hrun hadv, hregs'.trans hregs, huidx', fun a ha => ?_,
    fun hother => hprog'.imp_left fun h => h.trans (hprog hother)⟩
  rw [State.afterService_read (hwmem.symm ▸ hmem) ha, hwmem]

/-- Settles O13: the literal modulo 65536, and `IB_VALUE`, through the write path. -/
theorem literalsAreWritten : Obligations.LiteralsAreWritten :=
  fun s _ _ h => ⟨fun value => written_of_exec (exec_lit value s h), written_of_exec (exec_litIb s h)⟩

/-- Settles O14: the value written is the one read from the state before. -/
theorem movesReadBeforeTheyWrite : Obligations.MovesReadBeforeTheyWrite :=
  fun s _ _ _ _ hs hd => written_of_exec (exec_move s hs hd)

/-- Settles O16: below 4096 the Word at `mar` goes through the write path. -/
theorem ramReadLoadsTheWordAtMar : Obligations.RamReadLoadsTheWordAtMar :=
  fun _ _ _ h ha => written_of_exec (exec_ramRd_of_lt h ha)

/-- Settles O17: where no memory is, the read raises the fault. -/
theorem ramReadFaultsOutsideMemory : Obligations.RamReadFaultsOutsideMemory :=
  fun _ _ _ h ha => exec_ramRd_of_le h ha

/-- Settles O28: the comparison on the numbers, in the model's own field. -/
theorem psrTestComparesTheBit : Obligations.PsrTestComparesTheBit :=
  fun s bit e => ⟨_, exec_psrTest bit e s, bne_bitWord_iff _ e, fun _ _ => rfl, fun _ => rfl, rfl, rfl, rfl,
    rfl, rfl, rfl, rfl, rfl, rfl⟩

end Sys2Proof.Machine
end

