-- ==== Sys2Proof/Proofs/AluFacts.lean ====
section
/-! SUPPORT. Facts the statements of 42_alu.md share: the state an ALU microinstruction answers, the overflow test on the
numbers, and the result and flags of each operation whose definition does not already say them on the numbers. -/

namespace Sys2Proof.Machine

/-! ## The answers of the ALU microinstructions -/

theorem signBit_eq_negative (w : Word) : signBit w = negative w := BitVec.msb_eq_decide w

/-- The overflow test on the sign bits is the one on the numbers (42_alu.md R151). -/
theorem ovf_eq_overflowTest (p q r : Word) : ovf p q r = overflowTest p q r := by
  simp only [ovf, overflowTest, signBit_eq_negative, Bool.decide_and, bne, ne_eq, Bool.beq_eq_decide_eq, decide_not]

/-- N and Z are computed of the result as it is stored (42_alu.md R152). -/
theorem State.nzOfAlur_storeAlu (s : State) (o : AluOut) : (s.storeAlu o).nzOfAlur := by
  obtain ⟨-, -, hn, hz⟩ := s.storeAlu_flags o
  rw [State.nzOfAlur, hn, hz, State.storeAlu_alur, signBit_eq_negative, beq_eq_decide]
  exact ⟨rfl, decide_eq_decide.2 (BitVec.toNat_inj (y := 0)).symm⟩

/-- An ALU outcome goes to `alur` and the four flags and nowhere else (42_alu.md R150). -/
theorem State.keepsButAlu_storeAlu (s : State) (o : AluOut) : s.KeepsButAlu (s.storeAlu o) :=
  ⟨s.keepsRegsBut_storeAlu o, s.storeAlu_read_psr o (.inl rfl), s.storeAlu_read_psr o (.inr (.inl rfl)),
    s.storeAlu_read_psr o (.inr (.inr rfl)), s.storeAlu_psr_masked o, fun a => congrArg (·.read a) (s.storeAlu_mem o),
    ⟨s.storeAlu_prog o, s.storeAlu_uidx o, s.storeAlu_run o, s.storeAlu_early o⟩, s.storeAlu_keyPending o,
    s.storeAlu_out o, s.storeAlu_rom o, s.storeAlu_cfg o, s.storeAlu_inputs o, s.storeAlu_tick o⟩

/-- An instruction that answers `alu(op)` leaves the result of `op` in `alur`, its carry and overflow and the result's N
and Z in `psr`, and everything else alone (42_alu.md R150, R152). -/
theorem stored_of_exec (i : Instr) (op : Word → Word → Bool → AluOut) (s : State) (h : exec i s = .next (s.alu op)) :
    ∃ t, exec i s = .next t ∧ t.reg .alur = (op (s.reg .alux) (s.reg .aluy) (s.flag .c)).r ∧
      t.flag .c = (op (s.reg .alux) (s.reg .aluy) (s.flag .c)).c ∧
      t.flag .v = (op (s.reg .alux) (s.reg .aluy) (s.flag .c)).v ∧ t.nzOfAlur ∧ s.KeepsButAlu t := by
  obtain ⟨hc, hv, -, -⟩ := s.storeAlu_flags (op (s.reg .alux) (s.reg .aluy) (s.flag .c))
  exact ⟨_, h, s.storeAlu_alur _, hc, hv, s.nzOfAlur_storeAlu _, s.keepsButAlu_storeAlu _⟩

/-- The carry-in of `ADDC` as the number in the C field (42_alu.md R154). -/
theorem State.flag_c_toNat (s : State) : (s.flag .c).toNat = (s.read .psr .c).toNat := by
  have hbit : (s.read .psr .c).toNat < 2 := by
    rw [s.read_field_toNat .psr (by decide)]
    exact Nat.mod_lt _ (by decide)
  by_cases hset : s.read .psr .c = 1
  · rw [State.flag, hset]
    rfl
  · have hzero : (s.read .psr .c).toNat = 0 := by
      have hne : (s.read .psr .c).toNat ≠ 1 := mt (BitVec.toNat_inj (y := 1)).1 hset
      omega
    rw [State.flag, beq_false_of_ne hset, hzero]
    rfl

/-! ## The operations on the numbers -/

theorem normNat_toNat (n : Nat) : (normNat n).toNat = n % 65536 := BitVec.toNat_ofNat n 16

/-- The borrow of `SUB` adds 65536 to the difference (42_alu.md R155). -/
theorem opSub_r_toNat (x y : Word) (cin : Bool) :
    ((opSub x y cin).r.toNat : Int) = (if x.toNat < y.toNat then 65536 else 0) + (x.toNat : Int) - (y.toNat : Int) := by
  have hx := x.isLt
  have hy := y.isLt
  rw [opSub, wrapDifference_toNat (by omega) (by omega)]
  split <;> split <;> omega

theorem opShl_r_toNat (x y : Word) (cin : Bool) : (opShl x y cin).r.toNat = x.toNat * 2 % 65536 := by
  rw [opShl, BitVec.toNat_shiftLeft, Nat.shiftLeft_eq]

theorem opShr_r_toNat (x y : Word) (cin : Bool) : (opShr x y cin).r.toNat = x.toNat / 2 := by
  rw [opShr, BitVec.toNat_ushiftRight, Nat.shiftRight_eq_div_pow]

/-- The bit `SHR` shifts out is the parity of the operand (42_alu.md R157). -/
theorem opShr_c (x y : Word) (cin : Bool) : (opShr x y cin).c = decide (x.toNat % 2 = 1) := Nat.testBit_zero _

/-- `NOT` is the complement (42_alu.md R160). -/
theorem opNot_r (x y : Word) (cin : Bool) : (opNot x y cin).r = ~~~ x := by
  apply BitVec.eq_of_toNat_eq
  rw [opNot, normNat_toNat, BitVec.toNat_not]
  omega

theorem opInc_r_toNat (x y : Word) (cin : Bool) : (opInc x y cin).r.toNat = (x.toNat + 1) % 65536 := normNat_toNat _

/-- Only the largest positive Word overflows under `INC` (42_alu.md R165): elsewhere the sign stays or turns to 0. -/
theorem opInc_v (x y : Word) (cin : Bool) : (opInc x y cin).v = decide (x = 0x7FFF) := by
  have hr := opInc_r_toNat x y cin
  rw [show (opInc x y cin).v = ovf x 0x0000 (opInc x y cin).r from rfl, ovf_eq_overflowTest, overflowTest,
    decide_eq_decide, ← BitVec.toNat_inj]
  simp only [negative, hr, decide_eq_decide, ne_eq, BitVec.reduceToNat]
  omega

/-- Adding 65535 is subtracting 1, modulo 65536 (42_alu.md R162). -/
theorem opDec_r_toNat (x y : Word) (cin : Bool) : (opDec x y cin).r.toNat = (x.toNat + 65535) % 65536 := by
  have hx := x.isLt
  have hd := wrapDifference_toNat (d := (x.toNat : Int) - 1) (by omega) (by omega)
  rw [show (opDec x y cin).r = wrapDifference ((x.toNat : Int) - 1) from rfl]
  split at hd <;> omega

/-- Only the least negative Word overflows under `DEC` (42_alu.md R165): elsewhere the sign stays or turns to 1. -/
theorem opDec_v (x y : Word) (cin : Bool) : (opDec x y cin).v = decide (x = 0x8000) := by
  have hr := opDec_r_toNat x y cin
  rw [show (opDec x y cin).v = ovf x 0xFFFF (opDec x y cin).r from rfl, ovf_eq_overflowTest, overflowTest,
    decide_eq_decide, ← BitVec.toNat_inj]
  simp only [negative, hr, decide_eq_decide, ne_eq, BitVec.reduceToNat]
  omega

/-- `SWAP` exchanges the two bytes (42_alu.md R163). -/
theorem opSwap_r (x y : Word) (cin : Bool) : (opSwap x y cin).r = macroWord (lowByte x) (opByte x) := by
  apply BitVec.eq_of_getLsbD_eq
  intro i hi
  rw [show (opSwap x y cin).r = (x &&& fieldOnes .low) <<< 8 ||| x >>> 8 from rfl, getLsbD_macroWord, BitVec.getLsbD_or,
    BitVec.getLsbD_shiftLeft, BitVec.getLsbD_and, getLsbD_fieldOnes, BitVec.getLsbD_ushiftRight]
  by_cases hlow : i < 8
  · simp [hlow, opByte]
  · have hbyte : i - 8 < 8 := by omega
    have hout : x.getLsbD (8 + i) = false := BitVec.getLsbD_of_ge x _ (by omega)
    simp [hlow, hi, hbyte, hout, lowByte, fieldWidth]

theorem opSwap_r_toNat (x y : Word) (cin : Bool) : (opSwap x y cin).r.toNat = x.toNat % 256 * 256 + x.toNat / 256 := by
  rw [opSwap_r, macroWord_toNat, lowByte_toNat, opByte_toNat]

/-- A second exchange of the bytes restores the operand. -/
theorem opSwap_opSwap_r (x y y' : Word) (cin cin' : Bool) : (opSwap (opSwap x y cin).r y' cin').r = x := by
  apply BitVec.eq_of_toNat_eq
  have hx := x.isLt
  rw [opSwap_r_toNat, opSwap_r_toNat]
  omega

end Sys2Proof.Machine
end

