-- ==== Sys2Proof/Proofs/Alu.lean ====
section
/-! PROOFS. The statements of 42_alu.md: the result and the flags of each ALU operation, and what it leaves alone. -/

namespace Sys2Proof.Machine

/-- Settles O22: `ADD` and `ADDC` store a sum mod 65536, and the C field is the carry-in. -/
theorem addsGiveSumAndFlags : Obligations.AddsGiveSumAndFlags := by
  intro s
  obtain ⟨t, ht, hr, hc, hv, hrest⟩ := stored_of_exec .aluAdd opAdd s rfl
  obtain ⟨u, hu, hr', hc', hv', hrest'⟩ := stored_of_exec .aluAddc opAddc s rfl
  rw [← s.flag_c_toNat]
  refine ⟨⟨t, ht, ?_, hc, ?_, hrest⟩, u, hu, ?_, hc', ?_, hrest'⟩
  · exact hr ▸ normNat_toNat _
  · exact hr ▸ hv.trans (ovf_eq_overflowTest _ _ _)
  · exact hr' ▸ normNat_toNat _
  · exact hr' ▸ hv'.trans (ovf_eq_overflowTest _ _ _)

/-- Settles O23: the difference is wrapped by the borrow. -/
theorem subGivesDifferenceAndFlags : Obligations.SubGivesDifferenceAndFlags := by
  intro s
  obtain ⟨t, ht, hr, hc, hv, hrest⟩ := stored_of_exec .aluSub opSub s rfl
  exact ⟨t, ht, hr ▸ opSub_r_toNat _ _ _, hc, hr ▸ hv.trans (ovf_eq_overflowTest _ _ _), hrest⟩

/-- Settles O24: the bits shifted out are the sign and the parity, and half of a Word is not negative. -/
theorem shiftsMoveOneBit : Obligations.ShiftsMoveOneBit := by
  intro s
  obtain ⟨t, ht, hr, hc, hv, hrest⟩ := stored_of_exec .aluShl opShl s rfl
  obtain ⟨u, hu, hr', hc', hv', ⟨hn, hz⟩, hkeeps⟩ := stored_of_exec .aluShr opShr s rfl
  have hhalf : (u.reg .alur).toNat = (s.reg .alux).toNat / 2 := hr' ▸ opShr_r_toNat _ _ _
  have hnonneg : u.flag .n = false := by
    rw [hn, negative, hhalf, decide_eq_false_iff_not]
    omega
  exact ⟨⟨t, ht, hr ▸ opShl_r_toNat _ _ _, hc.trans (signBit_eq_negative _), hv, hrest⟩,
    u, hu, hhalf, hc'.trans (opShr_c _ _ _), hv', hnonneg, ⟨hn, hz⟩, hkeeps⟩

/-- Settles O25: the bits of a conjunction, of a disjunction and of a complement. -/
theorem logicIsBitwise : Obligations.LogicIsBitwise := by
  intro s
  obtain ⟨t, ht, hr, hrest⟩ := stored_of_exec .aluAnd opAnd s rfl
  obtain ⟨u, hu, hr', hrest'⟩ := stored_of_exec .aluOr opOr s rfl
  obtain ⟨w, hw, hr'', hrest''⟩ := stored_of_exec .aluNot opNot s rfl
  rw [opNot_r] at hr''
  refine ⟨⟨t, ht, fun k => ?and, hrest⟩, ⟨u, hu, fun k => ?or, hrest'⟩, w, hw, ?number, fun k hk => ?not, hrest''⟩
  case and => exact hr ▸ BitVec.getLsbD_and
  case or => exact hr' ▸ BitVec.getLsbD_or
  case number => exact hr'' ▸ BitVec.toNat_not
  case not => rw [hr'', BitVec.getLsbD_not, decide_eq_true hk, Bool.true_and]

/-- Settles O26: the operands that wrap and that overflow, and those whose result is 0. -/
theorem incAndDecWrap : Obligations.IncAndDecWrap := by
  intro s
  obtain ⟨t, ht, hr, hc, hv, ⟨hn, hz⟩, hkeeps⟩ := stored_of_exec .aluInc opInc s rfl
  obtain ⟨u, hu, hr', hc', hv', ⟨hn', hz'⟩, hkeeps'⟩ := stored_of_exec .aluDec opDec s rfl
  have hinc : (t.reg .alur).toNat = ((s.reg .alux).toNat + 1) % 65536 := hr ▸ opInc_r_toNat _ _ _
  have hdec : (u.reg .alur).toNat = ((s.reg .alux).toNat + 65535) % 65536 := hr' ▸ opDec_r_toNat _ _ _
  have hx := (s.reg .alux).isLt
  refine ⟨⟨t, ht, hinc, hc.trans (beq_eq_decide _ _), hv.trans (opInc_v _ _ _), ?incZero, ⟨hn, hz⟩, hkeeps⟩,
    u, hu, hdec, hc'.trans (beq_eq_decide _ _), hv'.trans (opDec_v _ _ _), ?decZero, ⟨hn', hz'⟩, hkeeps'⟩
  case incZero =>
    simp only [hz, hinc, decide_eq_decide, ← BitVec.toNat_inj, BitVec.reduceToNat]
    omega
  case decZero =>
    simp only [hz', hdec, decide_eq_decide, ← BitVec.toNat_inj, BitVec.reduceToNat]
    omega

/-- Settles O27: the exchange on the numbers, and the second `SWAP` run on the first one's result. -/
theorem swapExchangesBytes : Obligations.SwapExchangesBytes := by
  intro s
  obtain ⟨t, ht, hr, hc, hv, hrest⟩ := stored_of_exec .aluSwap opSwap s rfl
  refine ⟨⟨t, ht, hr ▸ opSwap_r_toNat _ _ _, hc, hv, hrest⟩, fun t' u w ht' hu hw => ?_⟩
  obtain rfl : t' = t := next_inj (ht.symm.trans ht')
  obtain rfl : u = t'.write .alux .whole (t'.reg .alur) := next_inj ((exec_move t' rfl rfl).symm.trans hu)
  obtain rfl := next_inj hw
  rw [State.alu, State.storeAlu_alur, State.write_reg_self, writtenValue_whole (by decide) (by decide), hr]
  exact opSwap_opSwap_r _ _ _ _ _

end Sys2Proof.Machine
end

