-- ==== Sys2Proof/Proofs/SequencerFacts.lean ====
section
/-! SUPPORT. Facts the statements of 43_sequencer.md share: which microinstruction is fetched, when a program ends, what a
step leaves at the start of a program and inside one, and the microinstructions that always go on. -/

namespace Sys2Proof.Machine

/-! ## The fetch (43_sequencer.md R180, R181) -/

/-- A program whose first entry is empty runs nothing else (43_sequencer.md R181). -/
theorem currentMicro_of_nop_first {P : Program} {u : Nat} (hP : P[0]? = some .nopEntry) (hu : u < P.length) :
    currentMicro P u = some .nopEntry := by
  cases P with
  | nil => cases hP
  | cons j P =>
    obtain rfl : j = .nopEntry := Option.some.inj hP
    exact if_pos hu

/-- A program that begins with a microinstruction runs its entries (43_sequencer.md R180). -/
theorem currentMicro_of_getElem? {P : Program} {u : Nat} {i : Instr} (hP : P[0]? ≠ some .nopEntry)
    (hi : P[u]? = some i) : currentMicro P u = some i := by
  unfold currentMicro
  split
  · cases hi
  · exact absurd rfl hP
  · exact hi

/-- A cursor within its program has a microinstruction to run (10_state.md R32). -/
theorem exists_currentMicro {P : Program} {u : Nat} (hu : u = 0 ∨ u < P.length) : ∃ i, currentMicro P u = some i := by
  rcases P.length.eq_zero_or_pos with hempty | hpos
  · obtain rfl := List.eq_nil_of_length_eq_zero hempty
    exact ⟨.nopEntry, rfl⟩
  · have hlt : u < P.length := by omega
    by_cases hnop : P[0]? = some .nopEntry
    · exact ⟨.nopEntry, currentMicro_of_nop_first hnop hlt⟩
    · exact ⟨P[u], currentMicro_of_getElem? hnop (List.getElem?_eq_getElem hlt)⟩

/-- An admitted ROM fetches what the current program has at the cursor. -/
theorem State.fetchMicro_of_currentMicro {s : State} {P : Program} {i : Instr} (hcheck : s.rom.check = none)
    (hP : s.rom.program s.prog = some P) (hi : currentMicro P s.uidx = some i) : s.fetchMicro = .ok i := by
  simp only [State.fetchMicro, hcheck, State.program, hP, hi]

/-- A sound cursor names a program of an admitted ROM: Fetch and Interrupt are always there (30_encoding.md R96). -/
theorem State.exists_program_of_cursorOk {s : State} (hcheck : s.rom.check = none) (hcursor : s.cursorOk) :
    ∃ P, s.rom.program s.prog = some P := by
  have hrom := Rom.admitted_of_check hcheck
  cases hprog : s.prog with
  | fetch => exact hrom.fetch
  | interrupt => exact hrom.interrupt
  | exec op => exact Option.isSome_iff_exists.1 (hcursor.1 op hprog)

/-- An admitted ROM and a sound cursor always fetch. -/
theorem State.exists_fetchMicro {s : State} (hcheck : s.rom.check = none) (hcursor : s.cursorOk) :
    ∃ i, s.fetchMicro = .ok i := by
  obtain ⟨P, hP⟩ := State.exists_program_of_cursorOk hcheck hcursor
  have hu : s.uidx = 0 ∨ s.uidx < P.length := State.programLength_eq hP ▸ hcursor.2
  obtain ⟨i, hi⟩ := exists_currentMicro hu
  exact ⟨i, State.fetchMicro_of_currentMicro hcheck hP hi⟩

/-- A fetched microinstruction answers: an admitted table holds no other (30_encoding.md R96). -/
theorem exists_exec_of_fetchMicro {s : State} {i : Instr} (hi : s.fetchMicro = .ok i) : ∃ u, exec i s = .next u := by
  obtain ⟨hmicro, happlies⟩ := State.fetchMicro_wf hi
  exact exec_micro_next s hmicro happlies

/-! ## The step of a running core -/

theorem step_of_running {s : State} (h : s.run = .running) : step s = s.runStep := by
  simp only [step, State.stepOnce, h]

/-- A running core that fetches takes a step: its microinstruction answers, and so do the phases after it. -/
theorem exists_step_of_fetchMicro {s : State} {i : Instr} (hrun : s.run = .running) (hi : s.fetchMicro = .ok i) :
    ∃ t, step s = .next t := by
  obtain ⟨u, hu⟩ := exists_exec_of_fetchMicro hi
  by_cases hurun : u.run = .running
  · obtain ⟨w, hadv, -⟩ := u.finishStep_next
    exact ⟨_, step_of_exec hrun hi hu hurun hadv⟩
  · exact ⟨_, step_of_fault hrun hi hu hurun⟩

/-! ## Phases 2 and 3 (43_sequencer.md R182 to R184) -/

theorem Rom.defines_eq_true_iff {r : Rom} {op : Byte} : r.defines op = true ↔ r.program (.exec op) ≠ none :=
  Option.isSome_iff_ne_none

theorem Rom.defines_eq_false_iff {r : Rom} {op : Byte} : r.defines op = false ↔ r.program (.exec op) = none :=
  Option.isSome_eq_false_iff.trans Option.isNone_iff_eq_none

theorem State.advance_of_not_programEnds {u : State} (h : u.programEnds = false) :
    u.advance = .next { u with uidx := u.nextIndex } := by
  simp only [State.advance, h, Bool.false_eq_true, if_false]

theorem State.advance_of_fetch_ends {u : State} (h : u.programEnds = true) (hprog : u.prog = .fetch) :
    u.advance = exec u.decodeIr u := by
  simp only [State.advance, h, State.transition, hprog, if_true]

theorem State.advance_of_other_ends {u : State} (h : u.programEnds = true) (hprog : u.prog ≠ .fetch) :
    u.advance = exec .fetch u := by
  simp only [State.advance, h, State.transition, hprog, if_true, if_false]

/-- A program ends by a failed test or by its last entry (43_sequencer.md R182). -/
theorem State.programEnds_iff {u : State} {P : Program} (hP : u.rom.program u.prog = some P) :
    u.programEnds = true ↔ u.early = true ∨ P.length ≤ u.uidx + 1 := by
  rw [State.programEnds, decide_eq_true_iff, State.nextIndex, State.programLength_eq hP]
  cases u.early <;> simp

/-- What the registers and the devices hold after phases 4 and 5 is what the microinstruction and the service routine make
of them: phases 2 and 3 touch neither (43_sequencer.md R188). -/
theorem State.afterService_of_advance {u w : State} (h : u.advance = .next w) :
    w.afterService.regs = u.regs ∧ w.afterService.mem = u.service.mem ∧ w.afterService.out = u.service.out ∧
      w.afterService.keyPending = u.service.keyPending := by
  obtain ⟨hregs, hmem, -, -, hkey, hout, hinputs, htick⟩ := State.advance_same h
  obtain ⟨hregs', -⟩ := w.afterService_same
  obtain ⟨hmem', hout', hkey'⟩ := w.afterService_served
  obtain ⟨hmem'', hout'', hkey''⟩ := State.service_congr (t := { w with early := false }) hmem hkey hout hinputs htick
  exact ⟨hregs'.trans hregs, hmem'.trans hmem'', hout'.trans hout'', hkey'.trans hkey''⟩

/-! ## A step that does not fault, with `u` the state its microinstruction left -/

section
variable {s u : State} {i : Instr} (hrun : s.run = .running) (hi : s.fetchMicro = .ok i) (hu : exec i s = .next u)
  (hurun : u.run = .running)

include hi hu in
/-- Whether the step ends the program is read off the index before it and `early` after its microinstruction
(43_sequencer.md R182). -/
theorem programEnds_iff_of_exec {P : Program} (hP : s.rom.program s.prog = some P) :
    u.programEnds = true ↔ u.early = true ∨ P.length ≤ s.uidx + 1 := by
  have hf := exec_micro_frame (State.fetchMicro_wf hi).1 hu
  rw [← hf.rom, ← hf.prog] at hP
  rw [State.programEnds_iff hP, hf.uidx]

include hrun hi hu hurun

/-- Where phases 2 and 3 leave the start of a program, the step leaves it too, or the start of Interrupt in its place
where I and E are 1 (60_exceptions.md R211). -/
theorem step_at_boundary {w : State} (hadv : u.advance = .next w) (hw : w.uidx = 0) :
    ∃ t, step s = .next t ∧ t.regs = u.regs ∧ t.uidx = 0 ∧ t.run = w.run ∧
      (t.prog = w.prog ∨ (w.run = .running ∧ t.prog = .interrupt ∧ (t.reg .psr).getLsbD 13 = true ∧
        (t.reg .psr).getLsbD 12 = true)) := by
  obtain ⟨hregs, -⟩ := State.afterService_of_advance hadv
  obtain ⟨hregs', hrun', -⟩ := w.afterService_same
  refine ⟨_, step_of_exec hrun hi hu hurun hadv, hregs, (State.afterService_start hw).1, hrun', ?_⟩
  rcases w.afterService_cursor with ⟨hprog, -⟩ | ⟨hwrun, -, -, hprog, hI, hE⟩
  · exact .inl hprog
  · have hreg : w.afterService.reg .psr = w.reg .psr := congrArg (·.get .psr) hregs'
    exact .inr ⟨hwrun, hprog, hreg ▸ hI, hreg ▸ hE⟩

/-- Inside a program the step goes on to the next entry; no interrupt is entered there, for the index is not 0
(43_sequencer.md R182, 60_exceptions.md R216). -/
theorem step_within_program {P : Program} (hP : s.rom.program s.prog = some P) (hearly : u.early = false)
    (hlt : s.uidx + 1 < P.length) :
    ∃ t, step s = .next t ∧ t.regs = u.regs ∧ t.uidx = s.uidx + 1 ∧ t.run = .running ∧ t.prog = s.prog ∧
      t.rom = s.rom ∧ t.early = false := by
  have hf := exec_micro_frame (State.fetchMicro_wf hi).1 hu
  have hends : u.programEnds = false := by
    rw [Bool.eq_false_iff, ne_eq, programEnds_iff_of_exec hi hu hP, hearly]
    simpa using hlt
  have hnext : u.nextIndex = s.uidx + 1 := by
    rw [State.nextIndex, hearly, if_neg Bool.false_ne_true, hf.uidx]
  have hadv := State.advance_of_not_programEnds hends
  obtain ⟨hregs, hrun', hrom, -, hearly'⟩ := State.afterService_same { u with uidx := u.nextIndex }
  obtain ⟨hprog, huidx⟩ := (State.afterService_cursor { u with uidx := u.nextIndex }).resolve_right
    fun ⟨_, hzero, _⟩ => absurd (hnext.symm.trans hzero) (Nat.succ_ne_zero _)
  exact ⟨_, step_of_exec hrun hi hu hurun hadv, hregs, huidx.trans hnext, hrun'.trans hurun, hprog.trans hf.prog,
    hrom.trans hf.rom, hearly'⟩

end

/-! ## The microinstructions that always go on (43_sequencer.md R189) -/

/-- A microinstruction that is neither a test nor a memory read leaves the run state and `early` alone. -/
theorem exec_goesOn {i : Instr} {s u : State} (hm : i.isMicro = true) (hgo : i.goesOn = true)
    (h : exec i s = .next u) : u.run = s.run ∧ u.early = s.early := by
  rcases exec_micro_cases hm h with rfl | ⟨d, f, v, -, rfl⟩ | ⟨src, ss, -, rfl⟩ | ⟨o, rfl⟩ | ⟨d, ds, rfl, -, -⟩ |
    ⟨bit, e, rfl, -⟩
  · exact ⟨rfl, rfl⟩
  · exact ⟨rfl, rfl⟩
  · exact ⟨rfl, rfl⟩
  · exact ⟨s.storeAlu_run o, s.storeAlu_early o⟩
  · cases hgo
  · cases hgo

/-- The core `t` runs at entry `n` of the program that is current in `s`, with the ROM of `s` and no test pending. -/
structure State.AtEntry (s t : State) (n : Nat) : Prop where
  prog : t.prog = s.prog
  uidx : t.uidx = n
  run : t.run = .running
  rom : t.rom = s.rom
  early : t.early = false

section
variable {s : State} {P : Program} (hcheck : s.rom.check = none) (hP : s.rom.program s.prog = some P)
  (hgo : ∀ i ∈ P, i.goesOn = true)
include hcheck hP hgo

/-- At an entry of a straight-line program, phase 1 runs a microinstruction that answers without a fault and fails no
test. -/
theorem State.AtEntry.exists_exec {t : State} {n : Nat} (ht : s.AtEntry t n) (hn : n = 0 ∨ n < P.length) :
    ∃ i u, t.fetchMicro = .ok i ∧ exec i t = .next u ∧ u.run = .running ∧ u.early = false := by
  obtain ⟨i, hi⟩ := exists_currentMicro hn
  have hfetch : t.fetchMicro = .ok i :=
    State.fetchMicro_of_currentMicro (by rw [ht.rom, hcheck]) (by rw [ht.rom, ht.prog, hP]) (by rw [ht.uidx, hi])
  have higo : i.goesOn = true := by
    rcases currentMicro_mem hi with rfl | hmem
    · rfl
    · exact hgo i hmem
  obtain ⟨u, hu⟩ := exists_exec_of_fetchMicro hfetch
  obtain ⟨hurun, huearly⟩ := exec_goesOn (State.fetchMicro_wf hfetch).1 higo hu
  exact ⟨i, u, hfetch, hu, hurun.trans ht.run, huearly.trans ht.early⟩

/-- A straight-line program stands at entry `n` after `n` steps, as long as it has such an entry. -/
theorem run_atEntry (hstart : s.AtEntry s 0) (n : Nat) (hn : n = 0 ∨ n < P.length) :
    ∃ t, Host.Core.run Sys2Proof.core n s = .next t ∧ s.AtEntry t n := by
  induction n with
  | zero => exact ⟨s, rfl, hstart⟩
  | succ n ih =>
    have hlt : n + 1 < P.length := by omega
    obtain ⟨t, hreach, ht⟩ := ih (.inr (by omega))
    obtain ⟨i, u, hi, hu, hurun, huearly⟩ := ht.exists_exec hcheck hP hgo (.inr (by omega))
    have hPt : t.rom.program t.prog = some P := by rw [ht.rom, ht.prog, hP]
    obtain ⟨t', hstep, -, huidx, hrun, hprog, hrom, hearly⟩ :=
      step_within_program ht.run hi hu hurun hPt huearly (ht.uidx ▸ hlt)
    exact ⟨t', core_run_snoc n hreach hstep,
      { prog := hprog.trans ht.prog, uidx := ht.uidx ▸ huidx, run := hrun, rom := hrom.trans ht.rom, early := hearly }⟩

/-- The step at the last entry of a straight-line program, or at the start of an empty one, leaves the start of a
program, which is Fetch or Interrupt after any program but Fetch (43_sequencer.md R182, R183). -/
theorem State.AtEntry.step_last {t : State} {n : Nat} (ht : s.AtEntry t n) (hn : n = 0 ∨ n < P.length)
    (hlast : P.length ≤ n + 1) :
    ∃ t', step t = .next t' ∧ t'.uidx = 0 ∧ (s.prog ≠ .fetch → t'.prog = .fetch ∨ t'.prog = .interrupt) := by
  obtain ⟨i, u, hi, hu, hurun, -⟩ := ht.exists_exec hcheck hP hgo hn
  have hPt : t.rom.program t.prog = some P := by rw [ht.rom, ht.prog, hP]
  have hends : u.programEnds = true := (programEnds_iff_of_exec hi hu hPt).2 (.inr (ht.uidx ▸ hlast))
  have huprog : u.prog = s.prog := (exec_micro_frame (State.fetchMicro_wf hi).1 hu).prog.trans ht.prog
  obtain ⟨w, hadv, hw, hwprog⟩ := State.advance_of_programEnds hends
  obtain ⟨t', hstep, -, huidx, -, hprog⟩ := step_at_boundary ht.run hi hu hurun hadv hw
  refine ⟨t', hstep, huidx, fun hother => ?_⟩
  have hfetch := hwprog (huprog ▸ hother)
  rcases hprog with h | ⟨-, h, -⟩
  · exact .inl (h.trans hfetch)
  · exact .inr h

end

end Sys2Proof.Machine
end

