-- ==== Sys2Proof/Proofs/Sequencer.lean ====
section
/-! PROOFS. The statements of 43_sequencer.md: the fetch, the phases of a step, the end of a program with the decode after
Fetch, the length of a straight-line program, and that an admitted core never gets stuck. -/

namespace Sys2Proof.Machine

/-- Settles O33: the sound cursor names an entry, and a fetched microinstruction answers. -/
theorem admittedCoreAlwaysSteps : Obligations.AdmittedCoreAlwaysSteps := by
  intro s hinv hcheck hrun
  obtain ⟨i, hi⟩ := State.exists_fetchMicro hcheck hinv.cursor
  exact exists_step_of_fetchMicro hrun hi

/-- Settles O42, by the three decode classes; only the defined one leaves a running core, which an interrupt may
enter. -/
theorem endOfFetchDecodes : Obligations.EndOfFetchDecodes := by
  intro s u P i hrun hprog hP hi hu hurun hend
  have hf := exec_micro_frame (State.fetchMicro_wf hi).1 hu
  have hends : u.programEnds = true := (programEnds_iff_of_exec hi hu (hprog ▸ hP)).2 hend
  have hadv : u.advance = exec u.decodeIr u := State.advance_of_fetch_ends hends (hf.prog.trans hprog)
  have hop : ∀ {op : Byte}, op.toNat = (u.reg .ir).toNat / 256 → opByte (u.reg .ir) = op := fun h =>
    BitVec.eq_of_toNat_eq ((opByte_toNat _).trans h.symm)
  rw [← hf.rom, ← hf.cfg]
  rcases u.decodeIr_cases with ⟨hdef, hdec⟩ | ⟨hdef, hhalt, hdec⟩ | ⟨hdef, hhalt, hdec⟩ <;> rw [hdec] at hadv
  all_goals
    obtain ⟨t, hstep, hregs, huidx, htrun, htprog⟩ := step_at_boundary hrun hi hu hurun hadv rfl
    refine ⟨t, hstep, hregs, huidx, fun op h => ?_⟩
    obtain rfl := hop h
  case inl =>
    rw [if_pos (Rom.defines_eq_false_iff.1 hdef)]
    exact ⟨htrun, (htprog.resolve_right nofun).trans (hf.prog.trans hprog)⟩
  case inr.inl =>
    rw [if_neg (Rom.defines_eq_true_iff.1 hdef), if_pos hhalt]
    exact ⟨htrun, (htprog.resolve_right nofun).trans (hf.prog.trans hprog)⟩
  case inr.inr =>
    rw [if_neg (Rom.defines_eq_true_iff.1 hdef), if_neg hhalt]
    exact ⟨htrun.trans hurun, htprog.imp_right And.right⟩

/-- Settles O43: phase 2 decides by `early` and the index, and phase 3 falls back. -/
theorem programsFallBackToFetch : Obligations.ProgramsFallBackToFetch := by
  intro s u P i hrun hP hi hu hurun
  refine ⟨fun hend hother => ?ends, fun ⟨hearly, hlt⟩ => ?goesOn⟩
  case ends =>
    have hends : u.programEnds = true := (programEnds_iff_of_exec hi hu hP).2 hend
    have huprog : u.prog ≠ .fetch := (exec_micro_frame (State.fetchMicro_wf hi).1 hu).prog ▸ hother
    obtain ⟨t, hstep, hregs, huidx, htrun, htprog⟩ :=
      step_at_boundary hrun hi hu hurun (State.advance_of_other_ends hends huprog) rfl
    exact ⟨t, hstep, hregs, huidx, htrun.trans hurun, htprog.imp_right And.right⟩
  case goesOn =>
    obtain ⟨t, hstep, hregs, huidx, htrun, htprog, -⟩ := step_within_program hrun hi hu hurun hP hearly hlt
    exact ⟨t, hstep, hregs, huidx, htrun, htprog⟩

/-- Settles O46, by induction on the steps up to the last entry, and one step more. -/
theorem activationTakesItsLength : Obligations.ActivationTakesItsLength := by
  intro s P hcheck hrun hearly hP hgo huidx
  have hstart : s.AtEntry s 0 := ⟨rfl, huidx, hrun, rfl, hearly⟩
  refine ⟨fun n hn => ?within, ?last⟩
  case within =>
    obtain ⟨t, hreach, ht⟩ := run_atEntry hcheck hP hgo hstart n (.inr hn)
    exact ⟨t, hreach, ht.prog, ht.uidx, ht.run⟩
  case last =>
    have hentry : P.length - 1 = 0 ∨ P.length - 1 < P.length := by omega
    obtain ⟨t, hreach, ht⟩ := run_atEntry hcheck hP hgo hstart _ hentry
    obtain ⟨t', hstep, hend⟩ := ht.step_last hcheck hP hgo hentry (by omega)
    rw [show max 1 P.length = P.length - 1 + 1 by omega]
    exact ⟨t', core_run_snoc _ hreach hstep, hend⟩

/-- Settles O53: a step whose microinstruction stopped the core has faulted, and any other goes through phase 4. -/
theorem everyStepIsServiced : Obligations.EveryStepIsServiced := by
  intro s t h hnofault
  obtain ⟨hrun, i, u, hi, hu, ⟨hstop, rfl⟩ | ⟨-, w, hadv, rfl⟩⟩ := step_next h
  · obtain ⟨-, rfl⟩ := exec_micro_fault (State.fetchMicro_wf hi).1 hu hrun hstop
    exact absurd rfl (hnofault _)
  · exact ⟨i, u, hi, hu, State.afterService_of_advance hadv⟩

/-- Settles O21, which is the meaning of the empty entry. -/
theorem nopEntryDoesNothing : Obligations.NopEntryDoesNothing :=
  fun _ => rfl

/-- Settles O29, which is the meaning of the four transitions. -/
theorem transitionsSetTheCursor : Obligations.TransitionsSetTheCursor :=
  fun _ _ _ => ⟨rfl, rfl, rfl, rfl⟩

/-- Settles O31, phase by phase. -/
theorem stepRunsTheFetchedInstruction : Obligations.StepRunsTheFetchedInstruction := by
  refine ⟨fun s i hrun hi => ?_, fun _ => State.advance_of_not_programEnds, fun _ => State.advance_of_fetch_ends,
    fun _ => State.advance_of_other_ends, fun u w t hadv hint => ?_⟩
  · obtain ⟨u, hu⟩ := exists_exec_of_fetchMicro hi
    simp only [step_of_running hrun, State.runStep, hi, hu]
  · simp only [State.finishStep, hadv, hint]

/-- Settles O32, by the three kinds of program. -/
theorem fetchFollowsTheTable : Obligations.FetchFollowsTheTable := by
  intro s P hcheck hP
  refine ⟨?empty, fun hnop hlt => ?noop, fun hnop i hi => ?entry⟩
  case empty =>
    rintro rfl
    exact State.fetchMicro_of_currentMicro hcheck hP rfl
  case noop => exact State.fetchMicro_of_currentMicro hcheck hP (currentMicro_of_nop_first hnop hlt)
  case entry => exact State.fetchMicro_of_currentMicro hcheck hP (currentMicro_of_getElem? hnop hi)

/-- Settles O39, by the run state; the running one is O33. -/
theorem noStepUnlessRunning : Obligations.NoStepUnlessRunning := by
  intro s
  refine ⟨fun h => ?_, fun op h => ?_, fun r h => ?_, fun hrun hinv hcheck => admittedCoreAlwaysSteps s hinv hcheck hrun⟩
  all_goals simp only [step, State.stepOnce, h]

end Sys2Proof.Machine
end

