-- ==== Sys2Proof/Proofs/ExceptionsFacts.lean ====
section
/-! SUPPORT. Facts the statements of 60_exceptions.md share: what each device cell holds after the service routine, the
condition of interrupt entry on the state and over a step, and what the host's actions answer and keep. -/

namespace Sys2Proof.Machine

/-! ## The service routine, cell by cell (60_exceptions.md R220 to R227) -/

/-- The output handshake emits the datum where the status is 1 and the datum is not 0 (60_exceptions.md R221). -/
theorem State.outputHandshake_out (s : State) :
    s.outputHandshake.out =
      if s.mem.read outputData ≠ 0 ∧ s.mem.read outputStatus = 1 then s.out ++ [s.mem.read outputData] else s.out := by
  unfold State.outputHandshake
  by_cases hzero : s.mem.read outputStatus = 0
  · simp [hzero]
  · rw [if_neg hzero]
    split <;> rfl

/-- The output handshake writes its own two cells only. -/
theorem State.read_outputHandshake_of_ne {s : State} (h : s.mem.wf = true) {x : Nat} (hd : x ≠ outputData)
    (hs : x ≠ outputStatus) : s.outputHandshake.mem.read x = s.mem.read x := by
  simp only [State.read_outputHandshake h, hd, hs, if_false, ite_self]

/-- The input handshake writes its own two cells only. -/
theorem State.read_inputHandshake_of_ne {s : State} (h : s.mem.wf = true) {x : Nat} (hd : x ≠ inputData)
    (hs : x ≠ inputStatus) : s.inputHandshake.mem.read x = s.mem.read x := by
  rw [State.read_inputHandshake h]
  cases s.keyPending with
  | some k => exact if_neg hd
  | none => exact if_neg hs

section
variable {s : State} (h : s.mem.wf = true)
include h

theorem State.outputHandshake_wf : s.outputHandshake.mem.wf = true :=
  s.sameButDevices_outputHandshake.wf h

theorem State.handshakes_wf : s.outputHandshake.inputHandshake.mem.wf = true :=
  s.outputHandshake.sameButDevices_inputHandshake.wf (State.outputHandshake_wf h)

/-- After the service routine the output cells hold what the output handshake left: the parts after it do not write
them. -/
theorem State.read_service_output {x : Nat} (hx : x = outputData ∨ x = outputStatus) :
    s.service.mem.read x = s.outputHandshake.mem.read x := by
  have hcell : x < clockBase ∧ x ≠ inputData ∧ x ≠ inputStatus := by
    rcases hx with rfl | rfl <;> decide
  obtain ⟨hlt, hd, hs⟩ := hcell
  rw [State.read_service_io h hlt, State.read_inputHandshake_of_ne (State.outputHandshake_wf h) hd hs]

/-- After the service routine the input cells hold what the input handshake makes of the state before it: the output
handshake does not write them, nor do the parts that follow. -/
theorem State.read_service_input {x : Nat} (hx : x = inputData ∨ x = inputStatus) :
    s.service.mem.read x = s.inputHandshake.mem.read x := by
  have hcell : x < clockBase ∧ x ≠ outputData ∧ x ≠ outputStatus := by
    rcases hx with rfl | rfl <;> decide
  obtain ⟨hlt, hd, hs⟩ := hcell
  rw [State.read_service_io h hlt, State.read_inputHandshake (State.outputHandshake_wf h),
    State.outputHandshake_keyPending, State.read_outputHandshake_of_ne h hd hs, State.read_inputHandshake h]

/-- Of the cells from the clock on, the countdown writes only the timer, so the others hold what the clock's part
left. -/
theorem State.read_service_of_ne_timer {x : Nat} (hx : x ≠ timerCell) :
    s.service.mem.read x = (s.outputHandshake.inputHandshake.writeClock s.input.clk).mem.read x := by
  have hwf := (State.sameButDevices_writeClock _ s.input.clk).wf (State.handshakes_wf h)
  rw [State.service_eq_parts, State.serviceParts, State.read_countDown hwf, if_neg fun e => hx e.1]

/-- The timer counts down from the Word before the service routine, and stays at 0 (60_exceptions.md R227). -/
theorem State.read_service_timer :
    s.service.mem.read timerCell =
      if s.mem.read timerCell ≠ 0 then s.mem.read timerCell - 1 else s.mem.read timerCell := by
  have hwf := (State.sameButDevices_writeClock _ s.input.clk).wf (State.handshakes_wf h)
  have hkept : (s.outputHandshake.inputHandshake.writeClock s.input.clk).mem.read timerCell = s.mem.read timerCell :=
    calc
      _ = s.outputHandshake.inputHandshake.mem.read timerCell := by
        simp [State.read_writeClock (State.handshakes_wf h), timerCell, clockBase]
      _ = s.outputHandshake.mem.read timerCell :=
        State.read_inputHandshake_of_ne (State.outputHandshake_wf h) (by decide) (by decide)
      _ = s.mem.read timerCell := State.read_outputHandshake_of_ne h (by decide) (by decide)
  rw [State.service_eq_parts, State.serviceParts, State.read_countDown hwf, hkept]
  simp only [true_and]

/-- A nonzero datum at status 1 is emitted, and both cells are cleared (60_exceptions.md R221). -/
theorem State.service_emits (hstatus : s.mem.read outputStatus = 1) (hdatum : s.mem.read outputData ≠ 0) :
    s.service.out = s.out ++ [s.mem.read outputData] ∧ s.service.mem.read outputData = 0 ∧
      s.service.mem.read outputStatus = 0 := by
  have hzero : s.mem.read outputStatus ≠ 0 := by rw [hstatus]; decide
  have hread : ∀ x, s.outputHandshake.mem.read x =
      if x = outputStatus then 0 else if x = outputData then 0 else s.mem.read x := fun x => by
    rw [State.read_outputHandshake h, if_neg hzero, if_pos ⟨hdatum, hstatus⟩]
  refine ⟨?_, ?_, ?_⟩
  · rw [s.service_host.1, State.outputHandshake_out, if_pos ⟨hdatum, hstatus⟩]
  · rw [State.read_service_output h (.inl rfl), hread, if_neg (by decide), if_pos rfl]
  · rw [State.read_service_output h (.inr rfl), hread, if_pos rfl]

end

/-- A step whose microinstruction does not fault leaves in memory and output what the service routine makes of them
(43_sequencer.md R188). -/
theorem exists_step_served {s u : State} {i : Instr} (hrun : s.run = .running) (hi : s.fetchMicro = .ok i)
    (hu : exec i s = .next u) (hurun : u.run = .running) :
    ∃ t, step s = .next t ∧ t.mem = u.service.mem ∧ t.out = u.service.out := by
  obtain ⟨w, hadv, -⟩ := u.finishStep_next
  obtain ⟨-, hmem, hout, -⟩ := State.afterService_of_advance hadv
  exact ⟨_, step_of_exec hrun hi hu hurun hadv, hmem, hout⟩

/-! ## Interrupt entry (60_exceptions.md R211) -/

/-- The boundary admits an interrupt by either of the two settings (92_eei_decisions.md D17). -/
theorem State.boundaryAdmits_iff (s : State) :
    s.boundaryAdmits = true ↔ s.cfg.boundary = .anyProgramBoundary ∨ s.prog = .fetch := by
  unfold State.boundaryAdmits
  cases s.cfg.boundary <;> simp

/-- The driver takes an interrupt by the eager policy or by the step's input (92_eei_decisions.md D16). -/
theorem State.takes_iff (s : State) :
    s.takes = true ↔ s.cfg.policy = .eager ∨ s.input.takeInterrupt = true := by
  unfold State.takes
  cases s.cfg.policy <;> simp

/-- The whole condition of interrupt entry, on the state. -/
theorem State.entersInterrupt_iff (s : State) :
    (s.interruptEligible && s.takes) = true ↔
      s.run = .running ∧ s.uidx = 0 ∧ (s.reg .psr).getLsbD 13 = true ∧ (s.reg .psr).getLsbD 12 = true ∧
        (s.cfg.boundary = .anyProgramBoundary ∨ s.prog = .fetch) ∧
        (s.cfg.policy = .eager ∨ s.input.takeInterrupt = true) := by
  simp only [State.interruptEligible, Bool.and_eq_true, beq_iff_eq, State.flag_i, State.flag_e, s.boundaryAdmits_iff,
    s.takes_iff, and_assoc]

/-- At a boundary the interrupt entry changes the current program alone: the index is 0 already (60_exceptions.md
R212). -/
theorem State.select_of_uidx_zero {s : State} (h : s.uidx = 0) (k : ProgKey) :
    s.select k = { s with prog := k } := by
  rw [State.select, ← h]

/-- Phases 2 and 3 keep the current program, fall back to Fetch, or select an Execute program (43_sequencer.md R183,
R187). -/
theorem State.advance_prog {u w : State} (h : u.advance = .next w) :
    w.prog = u.prog ∨ w.prog = .fetch ∨ ∃ op, w.prog = .exec op := by
  rcases u.advance_cases with ⟨-, e⟩ | ⟨-, -, e⟩ | ⟨-, -, -, e⟩ | ⟨-, -, -, -, e⟩ | ⟨-, -, -, -, e⟩ <;>
    obtain rfl := next_inj (e.symm.trans h)
  · exact .inl rfl
  · exact .inr (.inl rfl)
  · exact .inl rfl
  · exact .inl rfl
  · exact .inr (.inr ⟨_, rfl⟩)

/-- Phases 4 and 5 write no register (60_exceptions.md R210, R212). -/
theorem State.afterService_reg (w : State) (r : RegName) : w.afterService.reg r = w.reg r :=
  congrArg (·.get r) w.afterService_same.1

/-- Under the decided policy and boundary, phase 5 enters the Interrupt program wherever a running core stands at a
boundary with I and E both 1 (92_eei_decisions.md D16, D17). -/
theorem State.afterService_enters_interrupt {w : State} (hpolicy : w.cfg.policy = .eager)
    (hboundary : w.cfg.boundary = .anyProgramBoundary) (hrun : w.run = .running) (huidx : w.uidx = 0)
    (hI : (w.reg .psr).getLsbD 13 = true) (hE : (w.reg .psr).getLsbD 12 = true) :
    w.afterService.prog = .interrupt := by
  have henters : ((State.service { w with early := false }).interruptEligible &&
      (State.service { w with early := false }).takes) = true := by
    rw [State.entersInterrupt_iff, State.service_run, State.service_uidx, State.service_reg, State.service_cfg]
    exact ⟨hrun, huidx, hI, hE, .inl hboundary, .inl hpolicy⟩
  rw [State.afterService, State.interruptCheck, if_pos henters]
  rfl

/-! ## The host's actions (60_exceptions.md R241 to R245, 70_reset_and_hazards.md R250 to R252) -/

/-- `norm` of a value that is negative or no number (10_state.md R20). -/
theorem normValue_eq_zero {v : Value} (h : v = .nonNumeric ∨ ∃ n : Int, n < 0 ∧ v = .num n) : normValue v = 0 := by
  rcases h with rfl | ⟨n, hn, rfl⟩
  · rfl
  · exact normValue_of_neg hn

/-- A host register write under a spec that applies is the normalised write (60_exceptions.md R242). -/
theorem hostAct_writeReg_of_applies {f : Spec} {r : RegName} (h : f.appliesTo r = true) (v : Value) (s : State) :
    hostAct (.writeReg r f v) s = .next (s.write r f (normValue v)) := by
  simp only [hostAct, h, whenApplies_true]

/-- A restart that answers was asked of a halted core, and leaves it running at the start of Fetch
(70_reset_and_hazards.md R252). -/
theorem State.restart_next {s t : State} (h : s.restart = .next t) :
    (s.run = .halted ∨ ∃ op, s.run = .decodeError op) ∧ t = { s.select .fetch with run := .running } := by
  unfold State.restart at h
  split at h
  next hrun => exact ⟨.inl hrun, next_inj h⟩
  next op hrun => exact ⟨.inr ⟨op, hrun⟩, next_inj h⟩
  · cases h
  · cases h

/-- A reset that answers has loaded a table (70_reset_and_hazards.md R250). -/
theorem hostAct_reset_next {s t : State} {table : List Record} {text : Token}
    (h : hostAct (.reset table text) s = .next t) : ∃ rom, t = s.powerUp rom text := by
  simp only [hostAct] at h
  split at h
  next rom _ => exact ⟨rom, next_inj h⟩
  · cases h

/-- A register write keeps the invariant: the write path masks `psr` (10_state.md R30). -/
theorem State.Inv.write {s : State} (hs : s.Inv) (r : RegName) (f : Spec) (v : Word) : (s.write r f v).Inv :=
  ⟨hs.mem, State.write_psr_masked hs.psr r f v, hs.cursor, hs.halt, hs.fault, hs.early⟩

/-- A memory write keeps the invariant: a store keeps the canonical form (20_memory.md R53). -/
theorem State.Inv.memWrite {s : State} (hs : s.Inv) (addr : Nat) (v : Word) : (s.memWrite addr v).Inv :=
  ⟨Memory.write_wf hs.mem addr v, hs.psr, hs.cursor, hs.halt, hs.fault, hs.early⟩

/-- The registers after a reset have no reserved bit of `psr` set (10_state.md R39). -/
theorem State.powerUp_psrOk (s : State) (rom : Rom) (text : Token) : (s.powerUp rom text).psrOk :=
  writtenValue_psr_masked .whole 0 s.cfg.resetRegs.psr

/-- A reset establishes the invariant, whatever the state before (70_reset_and_hazards.md R250). -/
theorem State.inv_powerUp (s : State) (rom : Rom) (text : Token) : (s.powerUp rom text).Inv :=
  .of_running rfl (loadRomText_wf text rfl) (s.powerUp_psrOk rom text) ⟨nofun, .inl rfl⟩ rfl

/-- An action of the host keeps the invariant. -/
theorem State.Inv.of_hostAct {s t : State} {a : HostAction} (hs : s.Inv) (h : hostAct a s = .next t) : t.Inv := by
  cases a with
  | pressKey k => exact next_inj h ▸ ⟨hs.mem, hs.psr, hs.cursor, hs.halt, hs.fault, hs.early⟩
  | writeReg r f v => exact (whenApplies_next h).2 ▸ hs.write r f (normValue v)
  | writeMem addr v => exact next_inj h ▸ hs.memWrite addr (normValue v)
  | supply i => exact next_inj h ▸ ⟨hs.mem, hs.psr, hs.cursor, hs.halt, hs.fault, hs.early⟩
  | restart =>
    obtain ⟨-, rfl⟩ := State.restart_next h
    exact .of_running rfl hs.mem hs.psr (State.cursorOk_select (s := s) nofun) hs.early
  | reset table text =>
    obtain ⟨rom, rfl⟩ := hostAct_reset_next h
    exact s.inv_powerUp rom text

/-- Steps and host actions in any order keep the invariant. -/
theorem State.Inv.of_reaches {s t : State} (hs : s.Inv) (h : Reaches s t) : t.Inv := by
  induction h with
  | refl => exact hs
  | tail _ m ih =>
    cases m with
    | step h => exact ih.of_step h
    | host a h => exact ih.of_hostAct h

/-- No action of the host but a reset takes a core out of a fault (60_exceptions.md R203). -/
theorem hostAct_of_faulted {s t : State} {r : FaultReason} {a : HostAction} (hs : s.run = .faulted r)
    (h : hostAct a s = .next t) : t.run = .faulted r ∨ ∃ table text, a = .reset table text := by
  cases a with
  | pressKey | writeMem | supply => exact .inl (next_inj h ▸ hs)
  | writeReg => exact .inl ((whenApplies_next h).2 ▸ hs)
  | restart =>
    obtain ⟨hhalt | ⟨op, hhalt⟩, -⟩ := State.restart_next h <;> cases hs.symm.trans hhalt
  | reset table text => exact .inr ⟨table, text, rfl⟩

end Sys2Proof.Machine
end

