-- ==== Sys2Proof/Proofs/Exceptions.lean ====
section
/-! PROOFS. The statements of 60_exceptions.md: faults, interrupt entry, the service routine with its devices, and the
host's actions with the runs they make. -/

namespace Sys2Proof.Machine

/-- Settles O10: the host's write is the normalised register write. -/
theorem wholeWritesWrap : Obligations.WholeWritesWrap := by
  intro s r v
  refine ⟨fun n hn => hn ▸ normValue_natCast_toNat n, normValue_eq_zero,
    ⟨_, hostAct_writeReg_of_applies rfl v s, ?ordinary, ?inc, ?psr, s.write_frame r .whole _⟩,
    fun f hf happlies => ⟨_, hostAct_writeReg_of_applies happlies v s, s.fieldWritten_write r hf _,
      (s.write_frame r f _).2⟩,
    fun f hf => ?refused⟩
  case ordinary =>
    intro hinc hpsr
    rw [State.write_reg_self, writtenValue_whole hinc hpsr]
  case inc =>
    rintro rfl
    rw [State.write_reg_self, writtenValue_inc, if_pos rfl]
    exact BitVec.toNat_add _ 1
  case psr =>
    rintro rfl
    rw [State.write_reg_self, writtenValue_psr, writtenValue_whole (by decide) (by decide)]
    rfl
  case refused => simp only [hostAct, hf, whenApplies_false]

/-- Settles O30: the condition is the one the check evaluates, and at index 0 the entry changes `prog` alone. -/
theorem interruptEntryChangesOnlyProg : Obligations.InterruptEntryChangesOnlyProg := by
  intro s
  rw [← s.entersInterrupt_iff]
  refine ⟨fun henters => ?enters, fun hstays => ?stays⟩
  case enters =>
    obtain ⟨-, huidx, -⟩ := s.entersInterrupt_iff.1 henters
    calc exec .interrupt s = .next (s.select .interrupt) := congrArg Host.Outcome.next (if_pos henters)
      _ = .next { s with prog := .interrupt } := by rw [State.select_of_uidx_zero huidx]
  case stays => exact congrArg Host.Outcome.next (if_neg hstays)

/-- Settles O35, action by action. -/
theorem hostActionsKeepTheInvariant : Obligations.HostActionsKeepTheInvariant :=
  fun _ _ _ hs h => hs.of_hostAct h

/-- Settles O37, by induction on the moves; the reset state has the invariant. -/
theorem reachedStatesAreSound : Obligations.ReachedStatesAreSound :=
  ⟨fun _ _ hs h => hs.of_reaches h, fun _ h => resetHasTheInvariant.of_reaches h⟩

/-- Settles O40: phase 1 raises the fault, after which no other phase runs, and the core steps only while it runs. -/
theorem faultEndsTheStep : Obligations.FaultEndsTheStep := by
  refine ⟨fun s d ds hrun hi haddr => ?_, fun s t r hfault => ⟨fun h => ?_, fun a h => hostAct_of_faulted hfault h⟩⟩
  · have happlies : ds.appliesTo d = true := (State.fetchMicro_wf hi).2
    exact step_of_fault hrun hi (exec_ramRd_of_le happlies haddr) nofun
  · obtain ⟨hrun, -⟩ := step_next h
    cases hfault.symm.trans hrun

/-- Settles O44: no phase before the interrupt check selects the Interrupt program. -/
theorem interruptsOnlyAtBoundaries : Obligations.InterruptsOnlyAtBoundaries := by
  intro s t h hother hprog
  obtain ⟨-, i, u, hi, hu, hend⟩ := step_next h
  have huprog : u.prog ≠ .interrupt := (exec_micro_frame (State.fetchMicro_wf hi).1 hu).prog ▸ hother
  rcases hend with ⟨-, rfl⟩ | ⟨-, w, hadv, rfl⟩
  · exact absurd hprog huprog
  · have hwprog : w.prog ≠ .interrupt := by
      rcases State.advance_prog hadv with e | e | ⟨op, e⟩ <;> rw [e]
      · exact huprog
      · exact nofun
      · exact nofun
    rcases w.afterService_cursor with ⟨hkept, -⟩ | ⟨hrun, -, huidx, -, hI, hE⟩
    · exact absurd (hkept.symm.trans hprog) hwprog
    · obtain ⟨-, hrun', -⟩ := w.afterService_same
      rw [w.afterService_reg]
      exact ⟨huidx, hrun'.trans hrun, hI, hE⟩

/-- Settles O45: where the check did not enter the Interrupt program it left the cursor, `psr` and the parameters as they
are after the step, and these are its condition. -/
theorem eagerInterruptsAreTaken : Obligations.EagerInterruptsAreTaken := by
  intro s t hpolicy hboundary h hrun huidx hI hE
  obtain ⟨-, hsteps, -⟩ := romIsReadOnly
  obtain ⟨-, hcfg⟩ := hsteps s t h
  obtain ⟨-, -, u, -, -, ⟨hstop, rfl⟩ | ⟨-, w, -, rfl⟩⟩ := step_next h
  · exact absurd hrun hstop
  · obtain ⟨-, hrun', -, hcfg', -⟩ := w.afterService_same
    rw [w.afterService_reg] at hI hE
    have hwcfg : w.cfg = s.cfg := hcfg'.symm.trans hcfg
    rcases w.afterService_cursor with ⟨-, hkept⟩ | ⟨-, -, -, hprog, -, -⟩
    · exact State.afterService_enters_interrupt (hwcfg ▸ hpolicy) (hwcfg ▸ hboundary) (hrun' ▸ hrun) (hkept ▸ huidx) hI
        hE
    · exact hprog

/-- Settles O49, by the three cases of the handshake; the later parts do not write its cells. -/
theorem outputHandshakeIsAsStated : Obligations.OutputHandshakeIsAsStated := by
  intro s h
  have hdata := State.read_service_output h (.inl rfl)
  have hstatus := State.read_service_output h (.inr rfl)
  have hout : s.service.out = s.outputHandshake.out := s.service_host.1
  refine ⟨fun hzero => ?ready, fun hone hdatum => State.service_emits h hone hdatum, fun hzero hidle => ?idle⟩
  case ready =>
    have hnone : ¬ (s.mem.read outputData ≠ 0 ∧ s.mem.read outputStatus = 1) := fun e =>
      absurd (hzero.symm.trans e.2) (by decide)
    have hread : ∀ x, s.outputHandshake.mem.read x = if x = outputStatus then 1 else s.mem.read x := fun x => by
      rw [State.read_outputHandshake h]
      exact if_pos hzero
    exact ⟨hstatus.trans (hread _), hdata.trans (hread _), hout.trans (s.outputHandshake_out.trans (if_neg hnone))⟩
  case idle =>
    have hnone : ¬ (s.mem.read outputData ≠ 0 ∧ s.mem.read outputStatus = 1) := fun e =>
      hidle.elim (fun hne => hne e.2) e.1
    have hread : ∀ x, s.outputHandshake.mem.read x = s.mem.read x := fun x => by
      rw [State.read_outputHandshake h, if_neg hnone]
      exact if_neg hzero
    exact ⟨hout.trans (s.outputHandshake_out.trans (if_neg hnone)), hdata.trans (hread _), hstatus.trans (hread _)⟩

/-- Settles O50, by whether a key is pending; the later parts do not write the two cells. -/
theorem inputHandshakeIsAsStated : Obligations.InputHandshakeIsAsStated := by
  intro s h
  obtain ⟨-, hnone⟩ := s.service_host
  have hdata := (State.read_service_input h (.inl rfl)).trans (State.read_inputHandshake h _)
  have hstatus := (State.read_service_input h (.inr rfl)).trans (State.read_inputHandshake h _)
  refine ⟨hnone, fun k hk => ?pressed, fun hk => ?idle⟩
  case pressed =>
    rw [hk] at hdata hstatus
    exact ⟨(congrArg BitVec.toNat hdata).trans (normNat_toNat k), hstatus⟩
  case idle =>
    rw [hk] at hdata hstatus
    exact ⟨hdata, hstatus⟩

/-- Settles O51: the clock's part writes the six cells, and only the countdown follows it. -/
theorem clockAndTimerAreServiced : Obligations.ClockAndTimerAreServiced := by
  intro s h
  have hclock : ∀ n, n < 6 → s.service.mem.read (clockBase + n) =
      (s.outputHandshake.inputHandshake.writeClock s.input.clk).mem.read (clockBase + n) := fun n hn =>
    State.read_service_of_ne_timer h (by simp only [clockBase, timerCell]; omega)
  simp only [State.read_writeClock (State.handshakes_wf h)] at hclock
  refine ⟨hclock 0 (by decide), hclock 1 (by decide), hclock 2 (by decide), hclock 3 (by decide), hclock 4 (by decide),
    hclock 5 (by decide), (congrArg BitVec.toNat (State.read_service_timer h)).trans ?timer⟩
  case timer =>
    change (if s.mem.read 0x0EE ≠ 0 then s.mem.read 0x0EE - 1 else s.mem.read 0x0EE).toNat = _
    split
    next hne => bv_omega
    next hzero => rw [not_not.1 hzero]; rfl

/-- Settles O52: the parts keep everything but the device cells, the pending key and the output. -/
theorem serviceTouchesOnlyItsCells : Obligations.ServiceTouchesOnlyItsCells :=
  fun s =>
    have hkept := s.sameButDevices_service
    ⟨hkept.regs, ⟨hkept.prog, hkept.uidx, hkept.run, hkept.early⟩, hkept.rom, hkept.cfg, hkept.inputs, hkept.tick,
      fun h a ha => hkept.read h a (mt isDeviceCell_iff.1 ha)⟩

/-- Settles O54: the store comes before the service routine of the same step, which finds the datum at status 1. -/
theorem outputIsEmittedByTheStoringStep : Obligations.OutputIsEmittedByTheStoringStep := by
  intro s src ss h hrun hi hmar hstatus hdatum
  have happlies : ss.appliesTo src = true := (State.fetchMicro_wf hi).2
  have hu : exec (.ramWr src ss) s = .next (s.memWrite outputData (s.read src ss)) := by
    rw [exec_ramWr s happlies, hmar]
    rfl
  have hstored : (s.memWrite outputData (s.read src ss)).mem.read outputData = s.read src ss := by
    rw [State.read_memWrite outputData h, if_pos rfl]
  have hone : (s.memWrite outputData (s.read src ss)).mem.read outputStatus = 1 := by
    rw [State.read_memWrite outputData h, if_neg (by decide)]
    exact hstatus
  obtain ⟨hout, hdata, hcleared⟩ :=
    State.service_emits (State.memWrite_wf h _ _) hone (hstored.symm ▸ hdatum)
  obtain ⟨t, hstep, htmem, htout⟩ := exists_step_served hrun hi hu hrun
  rw [← htout, hstored, State.memWrite_out] at hout
  rw [← htmem] at hdata hcleared
  exact ⟨t, hstep, hout, hdata, hcleared⟩

end Sys2Proof.Machine
end

