-- ==== Sys2Proof/Proofs/ResetFacts.lean ====
section
/-! SUPPORT. What a restart answers in each run state, and what a reset makes of the registers (70_reset_and_hazards.md
R250, R252). -/

namespace Sys2Proof.Machine

/-! ## Restart (70_reset_and_hazards.md R252) -/

/-- A restart of a halted core starts Fetch anew, whatever halted it (92_eei_decisions.md D19). -/
theorem State.restart_of_halted {s : State} (h : s.run = .halted ∨ ∃ op, s.run = .decodeError op) :
    s.restart = .next { s.select .fetch with run := .running } := by
  rcases h with hrun | ⟨op, hrun⟩ <;> simp only [State.restart, hrun, State.fallBackToFetch_eq]

/-- A restart is refused while the core runs and after a fault (log 20). -/
theorem State.restart_of_not_halted {s : State} (h : s.run = .running ∨ ∃ r, s.run = .faulted r) :
    s.restart = .refused .restartNotDefined := by
  rcases h with hrun | ⟨r, hrun⟩ <;> simp only [State.restart, hrun]

/-! ## Power-up reset (70_reset_and_hazards.md R250) -/

/-- The reset values are `RESET_REGS` with one register replaced (10_state.md R39). -/
theorem Params.powerUpRegs_eq_set (p : Params) :
    Params.powerUpRegs p = p.resetRegs.set .psr (p.resetRegs.psr &&& psrMask) := rfl

theorem State.powerUp_reg_psr (s : State) (rom : Rom) (text : Token) :
    (s.powerUp rom text).reg .psr = s.cfg.resetRegs.psr &&& psrMask := rfl

theorem State.powerUp_reg_of_ne (s : State) (rom : Rom) (text : Token) {r : RegName} (h : r ≠ .psr) :
    (s.powerUp rom text).reg r = s.cfg.resetRegs.get r := by
  change (Params.powerUpRegs s.cfg).get r = s.cfg.resetRegs.get r
  rw [Params.powerUpRegs_eq_set, Regs.get_set_of_ne _ _ h]

theorem Regs.get_zero (r : RegName) : Regs.zero.get r = 0 := by
  cases r <;> rfl

/-- The decided reset values leave every register 0; the mask changes nothing there (92_eei_decisions.md D20). -/
theorem State.powerUp_reg_of_resetRegs_zero {s : State} (h : s.cfg.resetRegs = Regs.zero) (rom : Rom) (text : Token)
    (r : RegName) : (s.powerUp rom text).reg r = 0 := by
  by_cases hpsr : r = .psr
  · rw [hpsr, State.powerUp_reg_psr, h]
    exact BitVec.zero_and
  · rw [s.powerUp_reg_of_ne rom text hpsr, h, Regs.get_zero]

/-- A table is loaded only where its ROM passes the check (30_encoding.md R96). -/
theorem Rom.check_of_loadTable {sp : Spelling} {rs : List Record} {rom : Rom} (h : loadTable sp rs = .ok rom) :
    rom.check = none := by
  unfold loadTable at h
  split at h
  · cases h
  next loaded _ =>
    split at h
    · cases h
    next hcheck => cases h; exact hcheck

/-- The host's reset with an admitted table is the power-up. -/
theorem hostAct_reset_of_ok {s : State} {table : List Record} {rom : Rom}
    (h : loadTable s.cfg.spelling table = .ok rom) (text : Token) :
    hostAct (.reset table text) s = .next (s.powerUp rom text) := by
  simp only [hostAct, h]

/-- The host's reset with another table is refused with the check that failed. -/
theorem hostAct_reset_of_error {s : State} {table : List Record} {c : RomCheck}
    (h : loadTable s.cfg.spelling table = .error c) (text : Token) :
    hostAct (.reset table text) s = .refused (.romNotAdmitted c) := by
  simp only [hostAct, h]

end Sys2Proof.Machine
end

