-- ==== Sys2Proof/Proofs/Reset.lean ====
section
/-! PROOFS. The statements of 70_reset_and_hazards.md: restart and power-up reset. -/

namespace Sys2Proof.Machine

/-- Settles O56, by the run state. -/
theorem restartLeavesHaltOnly : Obligations.RestartLeavesHaltOnly :=
  fun _ => ⟨State.restart_of_halted, State.restart_of_not_halted⟩

/-- Settles O57, by whether the table loads: the registers by their reset rules, and the rest as the power-up sets
it. -/
theorem powerUpSetsTheState : Obligations.PowerUpSetsTheState := by
  intro s table text
  refine ⟨fun rom hload => ⟨s.powerUp rom text, hostAct_reset_of_ok hload text, rfl, Rom.check_of_loadTable hload,
    fun r hr => s.powerUp_reg_of_ne rom text hr, s.powerUp_reg_psr rom text,
    fun hzero => State.powerUp_reg_of_resetRegs_zero hzero rom text, ?rest⟩,
    fun c hload => hostAct_reset_of_error hload text⟩
  case rest => exact ⟨rfl, rfl, rfl, rfl, rfl, rfl, rfl, rfl, rfl⟩

end Sys2Proof.Machine
end
